-- ==== Sys2Proof/Word.lean ====
section
/-! DEFINITION. The machine's word types (00_scope.md R7, 10_state.md R12). -/

namespace Sys2Proof

/-- An 8-bit value: a byte of memory, a general register, a timer, an immediate (R7, R13). -/
abbrev Byte := BitVec 8

/-- A 16-bit value: an instruction word, `pc`, `I`, a stack entry (R17 to R19, R48). -/
abbrev Word := BitVec 16

/-- The 12-bit address operand `NNN` (30_encoding.md R49). -/
abbrev Addr := BitVec 12

/-- The index of a general register, 0 to 15 (R13). -/
abbrev RegIx := Fin 16

/-- The index of a key, 0 to 15 (R23). -/
abbrev KeyIx := Fin 16

/-- The row count `N` of a sprite, 0 to 15 (R51). -/
abbrev Rows := Fin 16

/-- The keypad: sixteen flags, flag `k` true when logical key `k` is pressed (R23, R65). -/
abbrev Keypad := Vector Bool 16

end Sys2Proof
end

