-- ==== Sys2Proof/Syntax.lean ====
section
/-! DEFINITION. The instructions: one constructor per row of spec/opcode_table.json (30_encoding.md R59).
Operands carry their ranges in their types: a register index is 0 to 15, `NN` has 8 bits, `NNN` 12, `N` is
0 to 15 (R49, R51), so every term of `Instr` is an instruction of the block. Bits that select nothing
(R53, R54) are no operands. -/

namespace Sys2Proof

/-- An instruction of the base opcode table (R59), operands in the order X, Y, N / NN / NNN. -/
inductive Instr
  /-- 00E0 `CLS` (R78) -/
  | cls
  /-- 00EE `RET` (R80) -/
  | ret
  /-- 1NNN `JP addr` (R81) -/
  | jp (nnn : Addr)
  /-- 2NNN `CALL addr` (R82) -/
  | call (nnn : Addr)
  /-- 3XNN `SE Vx, byte` (R83) -/
  | seImm (x : RegIx) (nn : Byte)
  /-- 4XNN `SNE Vx, byte` (R84) -/
  | sneImm (x : RegIx) (nn : Byte)
  /-- 5XY0 `SE Vx, Vy` (R85) -/
  | seReg (x y : RegIx)
  /-- 6XNN `LD Vx, byte` (R91) -/
  | ldImm (x : RegIx) (nn : Byte)
  /-- 7XNN `ADD Vx, byte` (R92) -/
  | addImm (x : RegIx) (nn : Byte)
  /-- 8XY0 `LD Vx, Vy` (R93) -/
  | ldReg (x y : RegIx)
  /-- 8XY1 `OR Vx, Vy` (R94) -/
  | or (x y : RegIx)
  /-- 8XY2 `AND Vx, Vy` (R95) -/
  | and (x y : RegIx)
  /-- 8XY3 `XOR Vx, Vy` (R96) -/
  | xor (x y : RegIx)
  /-- 8XY4 `ADD Vx, Vy` (R97) -/
  | addReg (x y : RegIx)
  /-- 8XY5 `SUB Vx, Vy` (R98) -/
  | sub (x y : RegIx)
  /-- 8XY6 `SHR Vx, Vy` (R99); `y` counts only when `SHIFT_SOURCE = VY` -/
  | shr (x y : RegIx)
  /-- 8XY7 `SUBN Vx, Vy` (R100) -/
  | subn (x y : RegIx)
  /-- 8XYE `SHL Vx, Vy` (R101); `y` counts only when `SHIFT_SOURCE = VY` -/
  | shl (x y : RegIx)
  /-- 9XY0 `SNE Vx, Vy` (R86) -/
  | sneReg (x y : RegIx)
  /-- ANNN `LD I, addr` (R103) -/
  | ldI (nnn : Addr)
  /-- BNNN `JP V0, addr` (R87) -/
  | jpV0 (nnn : Addr)
  /-- CXNN `RND Vx, byte` (R102) -/
  | rnd (x : RegIx) (nn : Byte)
  /-- DXYN `DRW Vx, Vy, nibble` (R79) -/
  | drw (x y : RegIx) (n : Rows)
  /-- EX9E `SKP Vx` (R109) -/
  | skp (x : RegIx)
  /-- EXA1 `SKNP Vx` (R110) -/
  | sknp (x : RegIx)
  /-- FX07 `LD Vx, DT` (R111) -/
  | ldVDt (x : RegIx)
  /-- FX0A `LD Vx, K` (R112) -/
  | ldVK (x : RegIx)
  /-- FX15 `LD DT, Vx` (R113) -/
  | ldDtV (x : RegIx)
  /-- FX18 `LD ST, Vx` (R114) -/
  | ldStV (x : RegIx)
  /-- FX1E `ADD I, Vx` (R104) -/
  | addIV (x : RegIx)
  /-- FX29 `LD F, Vx` (R105) -/
  | ldFV (x : RegIx)
  /-- FX33 `LD B, Vx` (R106) -/
  | ldBV (x : RegIx)
  /-- FX55 `LD [I], Vx` (R107) -/
  | ldMemV (x : RegIx)
  /-- FX65 `LD Vx, [I]` (R108) -/
  | ldVMem (x : RegIx)
  deriving DecidableEq, Repr

end Sys2Proof
end

