-- ==== Sys2Proof/WellFormed.lean ====
section
/-! DEFINITION. Well-formedness. Every term of `Instr` is well formed by its type; what can be ill formed is an
assembler line (30_encoding.md R63), whose operands are plain numbers: a line is well formed when its operands
have the kinds one line of the syntax column of R59 gives that mnemonic, each number within its operand's range. -/

namespace Sys2Proof

/-- The mnemonics of the syntax column of R59 (PRESUMED by the spec, its D28; log 9). -/
inductive Mnemonic
  | cls | ret | jp | call | se | sne | ld | add | or | and | xor | sub | shr | subn | shl | rnd | drw | skp | sknp
  deriving DecidableEq, Repr

/-- An operand as written: a register `V0` to `VF`, a number, or one of the keywords (R63). -/
inductive Operand
  | v (n : Nat)
  | byte (n : Nat)
  | addr (n : Nat)
  | nibble (n : Nat)
  | i | dt | st | k | f | b | memI
  deriving DecidableEq, Repr

/-- The kinds of operand. -/
inductive OperandKind
  | v | byte | addr | nibble | i | dt | st | k | f | b | memI
  deriving DecidableEq, Repr

/-- One assembler line. -/
structure Line where
  mnemonic : Mnemonic
  operands : List Operand
  deriving DecidableEq, Repr

/-- The kind of an operand. -/
def Operand.kind : Operand → OperandKind
  | .v _ => .v
  | .byte _ => .byte
  | .addr _ => .addr
  | .nibble _ => .nibble
  | .i => .i
  | .dt => .dt
  | .st => .st
  | .k => .k
  | .f => .f
  | .b => .b
  | .memI => .memI

/-- The numbers R63 allows: `V0` to `VF`, an 8-bit byte, a 12-bit address, a 4-bit nibble. -/
def Operand.inRange : Operand → Bool
  | .v n => n < 16
  | .byte n => n < 256
  | .addr n => n < 4096
  | .nibble n => n < 16
  | _ => true

/-- The forms of rows 1 to 9 of R59's syntax column. -/
def syntaxFormsLow : List (Mnemonic × List OperandKind) :=
  [(.cls, []), (.ret, []), (.jp, [.addr]), (.call, [.addr]), (.se, [.v, .byte]), (.sne, [.v, .byte]),
   (.se, [.v, .v]), (.ld, [.v, .byte]), (.add, [.v, .byte])]

/-- Rows 10 to 19; `SHR` and `SHL` stand twice, since they may omit `Vy` (R63). -/
def syntaxFormsAlu : List (Mnemonic × List OperandKind) :=
  [(.ld, [.v, .v]), (.or, [.v, .v]), (.and, [.v, .v]), (.xor, [.v, .v]), (.add, [.v, .v]), (.sub, [.v, .v]),
   (.shr, [.v]), (.shr, [.v, .v]), (.subn, [.v, .v]), (.shl, [.v]), (.shl, [.v, .v]), (.sne, [.v, .v])]

/-- Rows 20 to 34. -/
def syntaxFormsHigh : List (Mnemonic × List OperandKind) :=
  [(.ld, [.i, .addr]), (.jp, [.v, .addr]), (.rnd, [.v, .byte]), (.drw, [.v, .v, .nibble]), (.skp, [.v]),
   (.sknp, [.v]), (.ld, [.v, .dt]), (.ld, [.v, .k]), (.ld, [.dt, .v]), (.ld, [.st, .v]), (.add, [.i, .v]),
   (.ld, [.f, .v]), (.ld, [.b, .v]), (.ld, [.memI, .v]), (.ld, [.v, .memI])]

/-- The syntax column of R59, in its order. -/
def syntaxForms : List (Mnemonic × List OperandKind) := syntaxFormsLow ++ syntaxFormsAlu ++ syntaxFormsHigh

/-- `JP V0, addr` names register 0 and no other (42_control_flow.md R87). -/
def Line.jumpRegisterIsV0 : Line → Bool
  | ⟨.jp, [.v n, _]⟩ => n == 0
  | _ => true

/-- A well-formed line: a form of the syntax column, every number in range, and `V0` where `JP` takes a register. -/
def Line.wf (l : Line) : Bool :=
  syntaxForms.contains (l.mnemonic, l.operands.map Operand.kind) && l.operands.all Operand.inRange
    && l.jumpRegisterIsV0

end Sys2Proof
end

