-- ==== Sys2Proof/Decode.lean ====
section
/-! DEFINITION. Decoding (30_encoding.md R48 to R62), the encoder, the opcode map as a table (R59), and the
assembler (R63, R64). The bit patterns are PRESUMED by the spec (its D2, general knowledge); log 9. -/

namespace Sys2Proof

/-- Why bytes are no instruction: the four classes of illegal words (R60), with the sub-opcode that names nothing,
and a byte sequence shorter than an instruction (R48). -/
inductive Reject
  /-- group 0x0: the low byte is neither 0xE0 nor 0xEE -/
  | group0 (nn : Byte)
  /-- group 0x8: the lowest nibble is 0x8 to 0xD or 0xF -/
  | group8 (n : BitVec 4)
  /-- group 0xE: the low byte is neither 0x9E nor 0xA1 -/
  | groupE (nn : Byte)
  /-- group 0xF: the low byte is none of the nine -/
  | groupF (nn : Byte)
  /-- fewer than two bytes -/
  | truncated
  deriving DecidableEq, Repr

/-! ### Fields (R49) -/

/-- `G = w[15:12]`. -/
def fieldG (w : Word) : Fin 16 := (w.extractLsb' 12 4).toFin

/-- `X = w[11:8]`. -/
def fieldX (w : Word) : RegIx := (w.extractLsb' 8 4).toFin

/-- `Y = w[7:4]`. -/
def fieldY (w : Word) : RegIx := (w.extractLsb' 4 4).toFin

/-- `N = w[3:0]`. -/
def fieldN (w : Word) : Fin 16 := (w.extractLsb' 0 4).toFin

/-- `NN = w[7:0]`. -/
def fieldNN (w : Word) : Byte := w.extractLsb' 0 8

/-- `NNN = w[11:0]`. -/
def fieldNNN (w : Word) : Addr := w.extractLsb' 0 12

/-! ### Decode -/

/-- Second level of group 0x0, on the low byte; bits 11:8 select nothing (R53). -/
def decodeGroup0 (w : Word) : Except Reject Instr :=
  match (fieldNN w).toNat with
  | 0xE0 => .ok .cls
  | 0xEE => .ok .ret
  | _ => .error (.group0 (fieldNN w))

/-- Second level of group 0x8, on the lowest nibble (R55). -/
def decodeGroup8 (w : Word) : Except Reject Instr :=
  match (fieldN w).val with
  | 0x0 => .ok (.ldReg (fieldX w) (fieldY w))
  | 0x1 => .ok (.or (fieldX w) (fieldY w))
  | 0x2 => .ok (.and (fieldX w) (fieldY w))
  | 0x3 => .ok (.xor (fieldX w) (fieldY w))
  | 0x4 => .ok (.addReg (fieldX w) (fieldY w))
  | 0x5 => .ok (.sub (fieldX w) (fieldY w))
  | 0x6 => .ok (.shr (fieldX w) (fieldY w))
  | 0x7 => .ok (.subn (fieldX w) (fieldY w))
  | 0xE => .ok (.shl (fieldX w) (fieldY w))
  | _ => .error (.group8 (w.extractLsb' 0 4))

/-- Second level of group 0xE, on the low byte (R56). -/
def decodeGroupE (w : Word) : Except Reject Instr :=
  match (fieldNN w).toNat with
  | 0x9E => .ok (.skp (fieldX w))
  | 0xA1 => .ok (.sknp (fieldX w))
  | _ => .error (.groupE (fieldNN w))

/-- Second level of group 0xF, on the low byte (R57). -/
def decodeGroupF (w : Word) : Except Reject Instr :=
  match (fieldNN w).toNat with
  | 0x07 => .ok (.ldVDt (fieldX w))
  | 0x0A => .ok (.ldVK (fieldX w))
  | 0x15 => .ok (.ldDtV (fieldX w))
  | 0x18 => .ok (.ldStV (fieldX w))
  | 0x1E => .ok (.addIV (fieldX w))
  | 0x29 => .ok (.ldFV (fieldX w))
  | 0x33 => .ok (.ldBV (fieldX w))
  | 0x55 => .ok (.ldMemV (fieldX w))
  | 0x65 => .ok (.ldVMem (fieldX w))
  | _ => .error (.groupF (fieldNN w))

/-- Decode one instruction word: first-level dispatch on the highest nibble (R52), total on every word (R58);
bits 3:0 of groups 0x5 and 0x9 select nothing (R54). The last arm is group 0xF, the one nibble left. -/
def decodeWord (w : Word) : Except Reject Instr :=
  match (fieldG w).val with
  | 0x0 => decodeGroup0 w
  | 0x1 => .ok (.jp (fieldNNN w))
  | 0x2 => .ok (.call (fieldNNN w))
  | 0x3 => .ok (.seImm (fieldX w) (fieldNN w))
  | 0x4 => .ok (.sneImm (fieldX w) (fieldNN w))
  | 0x5 => .ok (.seReg (fieldX w) (fieldY w))
  | 0x6 => .ok (.ldImm (fieldX w) (fieldNN w))
  | 0x7 => .ok (.addImm (fieldX w) (fieldNN w))
  | 0x8 => decodeGroup8 w
  | 0x9 => .ok (.sneReg (fieldX w) (fieldY w))
  | 0xA => .ok (.ldI (fieldNNN w))
  | 0xB => .ok (.jpV0 (fieldNNN w))
  | 0xC => .ok (.rnd (fieldX w) (fieldNN w))
  | 0xD => .ok (.drw (fieldX w) (fieldY w) (fieldN w))
  | 0xE => decodeGroupE w
  | _ => decodeGroupF w

/-- The word two bytes make, high byte first (20_memory.md R38). -/
def wordOfBytes (hi lo : Byte) : Word := hi ++ lo

/-- Decode the first instruction of a byte sequence; the rest of the sequence comes with it. -/
def decode : List Byte → Except Reject (Instr × List Byte)
  | hi :: lo :: rest => (decodeWord (wordOfBytes hi lo)).map (·, rest)
  | _ => .error .truncated

/-- The instruction the decoder reads from the row word `w` of `nbits` bits (spec/opcode_table.json: one 16-bit
word, bit 0 its least significant), laid out as memory holds it: high byte first. -/
def decodeTableWord (nbits w : Nat) : Option Instr :=
  let word := BitVec.ofNat 16 (w % 2 ^ nbits)
  match decode [word.extractLsb' 8 8, word.extractLsb' 0 8] with
  | .ok (i, _) => some i
  | .error _ => none

/-! ### Encode (the formats of R50; the canonical words of R53 and R54) -/

/-- Format `F_NNN`. -/
def wordNNN (g : BitVec 4) (nnn : Addr) : Word := g ++ nnn

/-- Formats `F_XNN` and `F_XS`; `F_NONE` with `X = 0`. -/
def wordXNN (g : BitVec 4) (x : RegIx) (nn : Byte) : Word := g ++ (BitVec.ofFin x : BitVec 4) ++ nn

/-- Formats `F_XYN` and `F_XYS`; `F_XY` with `N = 0`. -/
def wordXYN (g : BitVec 4) (x y : RegIx) (n : Fin 16) : Word :=
  g ++ (BitVec.ofFin x : BitVec 4) ++ (BitVec.ofFin y : BitVec 4) ++ (BitVec.ofFin n : BitVec 4)

/-- The word of an instruction (R59). For CLS, RET, SE Vx, Vy and SNE Vx, Vy it is the canonical word (R63). -/
def encode : Instr → Word
  | .cls => wordXNN 0x0 0 0xE0
  | .ret => wordXNN 0x0 0 0xEE
  | .jp nnn => wordNNN 0x1 nnn
  | .call nnn => wordNNN 0x2 nnn
  | .seImm x nn => wordXNN 0x3 x nn
  | .sneImm x nn => wordXNN 0x4 x nn
  | .seReg x y => wordXYN 0x5 x y 0
  | .ldImm x nn => wordXNN 0x6 x nn
  | .addImm x nn => wordXNN 0x7 x nn
  | .ldReg x y => wordXYN 0x8 x y 0x0
  | .or x y => wordXYN 0x8 x y 0x1
  | .and x y => wordXYN 0x8 x y 0x2
  | .xor x y => wordXYN 0x8 x y 0x3
  | .addReg x y => wordXYN 0x8 x y 0x4
  | .sub x y => wordXYN 0x8 x y 0x5
  | .shr x y => wordXYN 0x8 x y 0x6
  | .subn x y => wordXYN 0x8 x y 0x7
  | .shl x y => wordXYN 0x8 x y 0xE
  | .sneReg x y => wordXYN 0x9 x y 0
  | .ldI nnn => wordNNN 0xA nnn
  | .jpV0 nnn => wordNNN 0xB nnn
  | .rnd x nn => wordXNN 0xC x nn
  | .drw x y n => wordXYN 0xD x y n
  | .skp x => wordXNN 0xE x 0x9E
  | .sknp x => wordXNN 0xE x 0xA1
  | .ldVDt x => wordXNN 0xF x 0x07
  | .ldVK x => wordXNN 0xF x 0x0A
  | .ldDtV x => wordXNN 0xF x 0x15
  | .ldStV x => wordXNN 0xF x 0x18
  | .addIV x => wordXNN 0xF x 0x1E
  | .ldFV x => wordXNN 0xF x 0x29
  | .ldBV x => wordXNN 0xF x 0x33
  | .ldMemV x => wordXNN 0xF x 0x55
  | .ldVMem x => wordXNN 0xF x 0x65

/-- The two bytes of an instruction, in the order memory holds them (R38). -/
def encodeBytes (i : Instr) : List Byte := [(encode i).extractLsb' 8 8, (encode i).extractLsb' 0 8]

/-! ### The opcode map as a table (R59) -/

/-- A row of the map: the row's mnemonic in spec/opcode_table.json, and its mask and match. -/
structure OpcodeRow where
  mnemonic : String
  mask : Word
  pattern : Word
  deriving DecidableEq, Repr

/-- Rows 1 to 9 of R59. -/
def opcodeRowsLow : List OpcodeRow :=
  [⟨"CLS", 0xF0FF, 0x00E0⟩, ⟨"RET", 0xF0FF, 0x00EE⟩, ⟨"JP", 0xF000, 0x1000⟩, ⟨"CALL", 0xF000, 0x2000⟩,
   ⟨"SE_IMM", 0xF000, 0x3000⟩, ⟨"SNE_IMM", 0xF000, 0x4000⟩, ⟨"SE_REG", 0xF000, 0x5000⟩,
   ⟨"LD_IMM", 0xF000, 0x6000⟩, ⟨"ADD_IMM", 0xF000, 0x7000⟩]

/-- Rows 10 to 18: group 0x8. -/
def opcodeRowsAlu : List OpcodeRow :=
  [⟨"LD_REG", 0xF00F, 0x8000⟩, ⟨"OR", 0xF00F, 0x8001⟩, ⟨"AND", 0xF00F, 0x8002⟩, ⟨"XOR", 0xF00F, 0x8003⟩,
   ⟨"ADD_REG", 0xF00F, 0x8004⟩, ⟨"SUB", 0xF00F, 0x8005⟩, ⟨"SHR", 0xF00F, 0x8006⟩, ⟨"SUBN", 0xF00F, 0x8007⟩,
   ⟨"SHL", 0xF00F, 0x800E⟩]

/-- Rows 19 to 25. -/
def opcodeRowsHigh : List OpcodeRow :=
  [⟨"SNE_REG", 0xF000, 0x9000⟩, ⟨"LD_I", 0xF000, 0xA000⟩, ⟨"JP_V0", 0xF000, 0xB000⟩, ⟨"RND", 0xF000, 0xC000⟩,
   ⟨"DRW", 0xF000, 0xD000⟩, ⟨"SKP", 0xF0FF, 0xE09E⟩, ⟨"SKNP", 0xF0FF, 0xE0A1⟩]

/-- Rows 26 to 34: group 0xF. -/
def opcodeRowsF : List OpcodeRow :=
  [⟨"LD_V_DT", 0xF0FF, 0xF007⟩, ⟨"LD_V_K", 0xF0FF, 0xF00A⟩, ⟨"LD_DT_V", 0xF0FF, 0xF015⟩,
   ⟨"LD_ST_V", 0xF0FF, 0xF018⟩, ⟨"ADD_I_V", 0xF0FF, 0xF01E⟩, ⟨"LD_F_V", 0xF0FF, 0xF029⟩,
   ⟨"LD_B_V", 0xF0FF, 0xF033⟩, ⟨"LD_MEM_V", 0xF0FF, 0xF055⟩, ⟨"LD_V_MEM", 0xF0FF, 0xF065⟩]

/-- The complete opcode map, in R59's order. -/
def opcodeTable : List OpcodeRow := opcodeRowsLow ++ opcodeRowsAlu ++ opcodeRowsHigh ++ opcodeRowsF

/-- A word is a row's instruction when `w AND mask = match` (R59). -/
def OpcodeRow.matchesWord (r : OpcodeRow) (w : Word) : Bool := w &&& r.mask == r.pattern

/-- An instruction's row number in R59, from 0. -/
def Instr.rowIx : Instr → Fin 34
  | .cls => 0
  | .ret => 1
  | .jp _ => 2
  | .call _ => 3
  | .seImm _ _ => 4
  | .sneImm _ _ => 5
  | .seReg _ _ => 6
  | .ldImm _ _ => 7
  | .addImm _ _ => 8
  | .ldReg _ _ => 9
  | .or _ _ => 10
  | .and _ _ => 11
  | .xor _ _ => 12
  | .addReg _ _ => 13
  | .sub _ _ => 14
  | .shr _ _ => 15
  | .subn _ _ => 16
  | .shl _ _ => 17
  | .sneReg _ _ => 18
  | .ldI _ => 19
  | .jpV0 _ => 20
  | .rnd _ _ => 21
  | .drw _ _ _ => 22
  | .skp _ => 23
  | .sknp _ => 24
  | .ldVDt _ => 25
  | .ldVK _ => 26
  | .ldDtV _ => 27
  | .ldStV _ => 28
  | .addIV _ => 29
  | .ldFV _ => 30
  | .ldBV _ => 31
  | .ldMemV _ => 32
  | .ldVMem _ => 33

/-- An instruction's row of the opcode map. -/
def Instr.row (i : Instr) : OpcodeRow := opcodeTable[i.rowIx.val]'(i.rowIx.isLt)

/-- The bits of an instruction's word that select something: all but bits 11:8 of CLS and RET (R53) and
bits 3:0 of groups 0x5 and 0x9 (R54). -/
def Instr.decodedBits : Instr → Word
  | .cls => 0xF0FF
  | .ret => 0xF0FF
  | .seReg _ _ => 0xFFF0
  | .sneReg _ _ => 0xFFF0
  | _ => 0xFFFF

/-! ### The assembler (R63, R64) -/

/-- The register a line's number names. -/
def regOf (n : Nat) : RegIx := Fin.ofNat 16 n

/-- The instruction of a line's form; `SHR Vx` and `SHL Vx` stand for `Y = 0` (R63). -/
def Line.instr : Line → Option Instr
  | ⟨.cls, []⟩ => some .cls
  | ⟨.ret, []⟩ => some .ret
  | ⟨.jp, [.addr a]⟩ => some (.jp (BitVec.ofNat 12 a))
  | ⟨.jp, [.v _, .addr a]⟩ => some (.jpV0 (BitVec.ofNat 12 a))
  | ⟨.call, [.addr a]⟩ => some (.call (BitVec.ofNat 12 a))
  | ⟨.se, [.v x, .byte b]⟩ => some (.seImm (regOf x) (BitVec.ofNat 8 b))
  | ⟨.se, [.v x, .v y]⟩ => some (.seReg (regOf x) (regOf y))
  | ⟨.sne, [.v x, .byte b]⟩ => some (.sneImm (regOf x) (BitVec.ofNat 8 b))
  | ⟨.sne, [.v x, .v y]⟩ => some (.sneReg (regOf x) (regOf y))
  | ⟨.ld, [.v x, .byte b]⟩ => some (.ldImm (regOf x) (BitVec.ofNat 8 b))
  | ⟨.ld, [.v x, .v y]⟩ => some (.ldReg (regOf x) (regOf y))
  | ⟨.ld, [.i, .addr a]⟩ => some (.ldI (BitVec.ofNat 12 a))
  | ⟨.ld, [.v x, .dt]⟩ => some (.ldVDt (regOf x))
  | ⟨.ld, [.v x, .k]⟩ => some (.ldVK (regOf x))
  | ⟨.ld, [.dt, .v x]⟩ => some (.ldDtV (regOf x))
  | ⟨.ld, [.st, .v x]⟩ => some (.ldStV (regOf x))
  | ⟨.ld, [.f, .v x]⟩ => some (.ldFV (regOf x))
  | ⟨.ld, [.b, .v x]⟩ => some (.ldBV (regOf x))
  | ⟨.ld, [.memI, .v x]⟩ => some (.ldMemV (regOf x))
  | ⟨.ld, [.v x, .memI]⟩ => some (.ldVMem (regOf x))
  | ⟨.add, [.v x, .byte b]⟩ => some (.addImm (regOf x) (BitVec.ofNat 8 b))
  | ⟨.add, [.v x, .v y]⟩ => some (.addReg (regOf x) (regOf y))
  | ⟨.add, [.i, .v x]⟩ => some (.addIV (regOf x))
  | ⟨.or, [.v x, .v y]⟩ => some (.or (regOf x) (regOf y))
  | ⟨.and, [.v x, .v y]⟩ => some (.and (regOf x) (regOf y))
  | ⟨.xor, [.v x, .v y]⟩ => some (.xor (regOf x) (regOf y))
  | ⟨.sub, [.v x, .v y]⟩ => some (.sub (regOf x) (regOf y))
  | ⟨.subn, [.v x, .v y]⟩ => some (.subn (regOf x) (regOf y))
  | ⟨.shr, [.v x]⟩ => some (.shr (regOf x) 0)
  | ⟨.shr, [.v x, .v y]⟩ => some (.shr (regOf x) (regOf y))
  | ⟨.shl, [.v x]⟩ => some (.shl (regOf x) 0)
  | ⟨.shl, [.v x, .v y]⟩ => some (.shl (regOf x) (regOf y))
  | ⟨.rnd, [.v x, .byte b]⟩ => some (.rnd (regOf x) (BitVec.ofNat 8 b))
  | ⟨.drw, [.v x, .v y, .nibble n]⟩ => some (.drw (regOf x) (regOf y) (Fin.ofNat 16 n))
  | ⟨.skp, [.v x]⟩ => some (.skp (regOf x))
  | ⟨.sknp, [.v x]⟩ => some (.sknp (regOf x))
  | _ => none

/-- The one word a well-formed line assembles to (R64); an ill-formed line is refused. -/
def assemble (l : Line) : Option Word := if l.wf then l.instr.map encode else none

end Sys2Proof
end

