-- ==== Sys2Proof/Config.lean ====
section
/-! DEFINITION. The block's parameters (00_scope.md R6) and the values the spec leaves open.
The parameters that a definition of the machine computes with and that the spec fills from general
knowledge (`FONT`, `SHIFT_SOURCE`) have their values in Machine/Memory.lean and Machine/Operands.lean. -/

namespace Sys2Proof.Config

/-- `MEM_SIZE` (R6). -/
abbrev memSize : Nat := 4096

/-- `FLAG_REG`: the register that holds the flag (R6, R15). -/
abbrev flagReg : RegIx := 0xF

/-- `STACK_DEPTH` (R6). -/
abbrev stackDepth : Nat := 16

/-- `PROGRAM_BASE`: where `Load` writes and where the first fetch goes (R6, R130). -/
abbrev programBase : Nat := 0x200

/-- `FONT_BASE` (R6, R34). -/
abbrev fontBase : Nat := 0x000

/-- `GLYPH_STRIDE`: bytes of a glyph (R6). -/
abbrev glyphStride : Nat := 5

/-- `WIDTH`: columns of the framebuffer (R6).
PRESUMED by the spec (its D3, general knowledge); log 6. -/
abbrev width : Nat := 64

/-- `HEIGHT`: rows of the framebuffer (R6).
PRESUMED by the spec (its D3, general knowledge); log 6. -/
abbrev height : Nat := 32

/-- The three values of `SUB_FLAG_POLARITY` (43_alu.md R89). -/
inductive SubFlagPolarity
  /-- the flag is 1 when the subtraction borrows, `a < b` -/
  | borrow
  /-- the flag is 1 when it does not borrow, `a ≥ b` -/
  | notBorrow
  /-- the flag is 1 when `a > b` -/
  | greater
  deriving DecidableEq, Repr, Inhabited

/-- `SUB_FLAG_POLARITY` is OPEN (R6, R89, D10): no value is chosen, and nothing in Lean can tell which it is.
Log 3, safe. -/
opaque subFlagPolarity : SubFlagPolarity

/-- The two values of `SHIFT_SOURCE` (R6, R99). -/
inductive ShiftSource
  /-- 8XY6 and 8XYE shift `V[X]` -/
  | vx
  /-- they shift `V[Y]` into `V[X]` -/
  | vy
  deriving DecidableEq, Repr

/-- The keypad snapshot of the `n`-th tick whose inputs no script names: any value (R65). Log 1, safe. -/
opaque freeKeypad : Nat → Keypad

/-- The random byte of the `n`-th tick whose inputs no script names: any value (R27, D23). Log 1, safe. -/
opaque freeRnd : Nat → Byte

end Sys2Proof.Config
end

