-- ==== Sys2Proof/Machine/Memory.lean ====
section
/-! DEFINITION. The memory array (20_memory.md R32 to R37, R41): a list of cells in one canonical form, what an
unlisted address reads as, reading, writing, and the range check. -/

namespace Sys2Proof.Machine

/-- Glyphs 0 to 7 of `FONT`, rows top first (R35). -/
def fontLow : List (List Byte) :=
  [[0xF0, 0x90, 0x90, 0x90, 0xF0], [0x20, 0x60, 0x20, 0x20, 0x70], [0xF0, 0x10, 0xF0, 0x80, 0xF0],
   [0xF0, 0x10, 0xF0, 0x10, 0xF0], [0x90, 0x90, 0xF0, 0x10, 0x10], [0xF0, 0x80, 0xF0, 0x10, 0xF0],
   [0xF0, 0x80, 0xF0, 0x90, 0xF0], [0xF0, 0x10, 0x20, 0x40, 0x40]]

/-- Glyphs 8 to F of `FONT` (R35). -/
def fontHigh : List (List Byte) :=
  [[0xF0, 0x90, 0xF0, 0x90, 0xF0], [0xF0, 0x90, 0xF0, 0x10, 0xF0], [0xF0, 0x90, 0xF0, 0x90, 0x90],
   [0xE0, 0x90, 0xE0, 0x90, 0xE0], [0xF0, 0x80, 0x80, 0x80, 0xF0], [0xE0, 0x90, 0x90, 0x90, 0xE0],
   [0xF0, 0x80, 0xF0, 0x80, 0xF0], [0xF0, 0x80, 0xF0, 0x80, 0x80]]

/-- `FONT`: glyph `d` is the `d`-th list (R35). PRESUMED by the spec (its D4, general knowledge); log 7. -/
def font : List (List Byte) := fontLow ++ fontHigh

/-- What an address holds at construction, which is what an unlisted address reads as: the font atlas at
`FONT_BASE`, five bytes a glyph (R34, R35), and zero everywhere else (R36). -/
def resetByte (a : Nat) : Byte :=
  (font.getD ((a - Config.fontBase) / Config.glyphStride) []).getD ((a - Config.fontBase) % Config.glyphStride) 0

/-- The memory array: the cells that differ from their construction contents, by rising address.
DESIGN CHOICE (log 13, safe): the representation. -/
abbrev Memory := List Host.Cell

/-- The canonical form: addresses strictly rising, each one an address of the array (R32), and no cell equal to
what an unlisted address reads as. -/
abbrev Memory.wf (m : Memory) : Prop :=
  m.Pairwise (fun c d => c.1 < d.1) ∧ ∀ c ∈ m, c.1 < Config.memSize ∧ c.2 ≠ resetByte c.1

/-- The byte at address `a` (R43). -/
def Memory.read : Memory → Nat → Byte
  | [], a => resetByte a
  | c :: m, a => if c.1 = a then c.2 else Memory.read m a

/-- Put a cell before the first one of a higher address. -/
def Memory.place : Memory → Nat → Byte → Memory
  | [], a, b => [(a, b)]
  | c :: m, a, b => if a < c.1 then (a, b) :: c :: m else c :: Memory.place m a b

/-- Write one byte: the cell replaces the one at its address, or removes it when the byte is the construction's. -/
def Memory.write (m : Memory) (a : Nat) (b : Byte) : Memory :=
  let others := m.filter fun c => c.1 != a
  if b = resetByte a then others else Memory.place others a b

/-- Write bytes at ascending addresses from `a` (R39). -/
def Memory.writeBytes : Memory → Nat → List Byte → Memory
  | m, _, [] => m
  | m, a, b :: bs => Memory.writeBytes (Memory.write m a b) (a + 1) bs

/-- Write bytes at ascending addresses from `a`, stopping at the first address past the array
(the loop of 70_reset_and_hazards.md R132). -/
def Memory.load : Memory → Nat → List Byte → Memory
  | m, _, [] => m
  | m, a, b :: bs => if 0xFFF < a then m else Memory.load (Memory.write m a b) (a + 1) bs

/-- The `n` bytes at `a`, `a + 1`, … (00_scope.md R8, `MemRead`). -/
def Memory.readBytes (m : Memory) (a n : Nat) : List Byte := (List.range n).map fun k => Memory.read m (a + k)

/-- The range check (R41): the first of the `n` addresses from `base` that is above 0xFFF, if one is.
Addresses are integers; `n = 0` names no address. -/
def firstOutside (base n : Nat) : Option Nat :=
  if 0 < n ∧ 0xFFF < base + n - 1 then some (max base 0x1000) else none

end Sys2Proof.Machine
end

