-- ==== Sys2Proof/Machine/State.lean ====
section
/-! DEFINITION. The state of the block (10_state.md R12), the host's pending transactions, the reasons a step can
stop, and the state after construction (70_reset_and_hazards.md R129). -/

namespace Sys2Proof.Machine

/-- The fatal faults of the block, each with the info it records (60_exceptions.md R115).
Raising one is no stop of the model: it is a next state whose `fault` field holds the record (R117).
DESIGN CHOICE (log 17, safe): the types of the infos. -/
inductive FaultCause
  /-- code 1: decoding found no instruction in the word -/
  | illegalInstruction (w : Word)
  /-- code 2: CALL with 16 return addresses on the stack -/
  | stackOverflow
  /-- code 3: RET with none -/
  | stackUnderflow
  /-- code 4: an access names an address above 0xFFF; the lowest such address -/
  | memoryOutOfRange (addr : Nat)
  /-- code 5: SKP or SKNP on a register value above 0xF; that value -/
  | keyOutOfRange (value : Byte)
  deriving DecidableEq, Repr

/-- The fault record: cause (code and info) and the pc of the instruction (R117). -/
structure FaultRecord where
  cause : FaultCause
  pc : Word
  deriving DecidableEq, Repr

/-- A transaction of the host that changes state (70_reset_and_hazards.md R135). -/
inductive HostCall
  /-- `Tick(keypad, rnd)` (40_cycle.md R65) -/
  | tick (keypad : Keypad) (rnd : Byte)
  /-- `Load(data)` (R132) -/
  | load (data : List Byte)
  deriving DecidableEq, Repr

/-- The framebuffer: rows of pixels, row 0 at the top, column 0 at the left (10_state.md R22). -/
abbrev Framebuffer := Vector (Vector Bool Config.width) Config.height

/-- The state. The fields down to `fault` are R12's list; the last three are the model's own (log 1, log 2). -/
structure State where
  /-- the memory array (R32) -/
  mem : Memory
  /-- the general registers (R13); `V[0xF]` is the flag (R15) -/
  V : Vector Byte 16
  /-- the index register (R17) -/
  I : Word
  /-- the program counter (R18) -/
  pc : Word
  /-- the return addresses (R19) -/
  stack : Vector Word Config.stackDepth
  /-- how many return addresses are in use, 0 to 16 (R19) -/
  sp : Fin 17
  /-- the delay timer (R20) -/
  DT : Byte
  /-- the sound timer (R21) -/
  ST : Byte
  /-- the framebuffer (R22) -/
  fb : Framebuffer
  /-- the changed flag (R25) -/
  changed : Bool
  /-- the keypad latch (R23) -/
  key : Keypad
  /-- wait-for-key mode is active (R24) -/
  waiting : Bool
  /-- the register that receives the key (R24) -/
  waitReg : RegIx
  /-- the fatal fault that ended interpretation, if one did (R26) -/
  fault : Option FaultRecord
  /-- DESIGN CHOICE (log 2): the random-byte input of the tick being executed, which R27 says is no state of the
  block; the tick writes it before the instruction executes, and only CXNN reads it -/
  rnd : Byte
  /-- DESIGN CHOICE (log 1): the host's next transactions, oldest first; each step performs one -/
  script : List HostCall
  /-- DESIGN CHOICE (log 1): how many ticks have taken their inputs from Config's free inputs -/
  freeTicks : Nat
  deriving DecidableEq, Repr

/-- The reasons a step can end in a fault of the model: there is none. Every fatal fault of the block is a next
state (40_cycle.md R65, R66, 60_exceptions.md R117; log 4), so nothing raises one and no step is lost. -/
inductive Fault
  deriving DecidableEq, Repr

/-- The reasons an instruction is refused. -/
inductive Refusal
  /-- The instruction has no meaning yet. Raised by nobody: every arm of `exec` has its meaning. Safe. -/
  | notModelled (mnemonic : String)
  deriving DecidableEq, Repr

/-- The state after construction (R129): memory holds its construction contents, `pc` is 0x200, everything else
is zero. The host's script is empty: what the host does is left open (log 1). -/
def State.reset : State where
  mem := []
  V := Vector.replicate 16 0
  I := 0x0000
  pc := 0x0200
  stack := Vector.replicate Config.stackDepth 0
  sp := 0
  DT := 0
  ST := 0
  fb := Vector.replicate Config.height (Vector.replicate Config.width false)
  changed := false
  key := Vector.replicate 16 false
  waiting := false
  waitReg := 0
  fault := none
  rnd := 0
  script := []
  freeTicks := 0

end Sys2Proof.Machine
end

