-- ==== Sys2Proof/Machine/Ops.lean ====
section
/-! DEFINITION. The named operations of the pseudocode (00_scope.md R8) over registers, memory, the call stack,
the framebuffer and the keypad, and taking a fault (60_exceptions.md R117). -/

namespace Sys2Proof.Machine

/-- The outcome of an instruction or a tick. -/
abbrev Result := Host.Outcome State Fault Refusal

/-! ### Registers -/

/-- `V[r]`. -/
def State.getV (s : State) (r : RegIx) : Byte := s.V[r.val]

/-- `V[r] <- b`. -/
def State.setV (s : State) (r : RegIx) (b : Byte) : State := { s with V := s.V.set r.val b }

/-- `V[0xF] <- b` (R15). -/
def State.setFlag (s : State) (b : Byte) : State := s.setV Config.flagReg b

/-- `I <- a`. -/
def State.setI (s : State) (a : Word) : State := { s with I := a }

/-- `pc <- target`. -/
def State.setPc (s : State) (target : Word) : State := { s with pc := target }

/-- `advance(k)`, computed in 16 bits (R8, 40_cycle.md R73). DEDUCED (log 14, safe): it wraps in no run (R74). -/
def State.advance (s : State) (k : Word) : State := { s with pc := s.pc + k }

/-- `advance(4)` when the skip is taken, else `advance(2)` (R73). -/
def State.skipIf (s : State) (c : Bool) : State := s.advance (if c then 4 else 2)

/-! ### Memory -/

/-- The byte of memory at `a`. -/
def State.readByte (s : State) (a : Nat) : Byte := Memory.read s.mem a

/-- Store bytes at ascending addresses from `a` (20_memory.md R39). -/
def State.storeBytes (s : State) (a : Nat) (bs : List Byte) : State :=
  { s with mem := Memory.writeBytes s.mem a bs }

/-- `V[0]` to `V[n - 1]`, in order. -/
def State.firstRegs (s : State) (n : Nat) : List Byte := (List.range n).map fun k => s.getV (regOf k)

/-- `for i in 0..n-1: V[i] <- mem[base + i]` (44_index_memory.md R108). -/
def State.loadRegs (s : State) (base : Nat) : Nat → State
  | 0 => s
  | k + 1 => (s.loadRegs base k).setV (regOf k) (s.readByte (base + k))

/-! ### Call stack (10_state.md R19) -/

/-- Push a return address: none when 16 are in use. -/
def State.push (s : State) (ret : Word) : Option State :=
  if h : s.sp.val < Config.stackDepth then
    some { s with stack := s.stack.set s.sp.val ret, sp := ⟨s.sp.val + 1, Nat.succ_lt_succ h⟩ }
  else none

/-- Pop a return address, which keeps its place in the array: none when none is in use. -/
def State.pop (s : State) : Option (Word × State) :=
  if h : 0 < s.sp.val then
    have hTop : s.sp.val - 1 < Config.stackDepth :=
      Nat.lt_of_lt_of_le (Nat.sub_lt h Nat.one_pos) (Nat.le_of_lt_succ s.sp.isLt)
    some (s.stack[s.sp.val - 1], { s with sp := ⟨s.sp.val - 1, Nat.lt_succ_of_lt hTop⟩ })
  else none

/-! ### Framebuffer (10_state.md R22) -/

/-- `fb[r][c]`. -/
def getPixel (fb : Framebuffer) (r : Fin Config.height) (c : Fin Config.width) : Bool := fb[r.val][c.val]

/-- `fb[r][c] <- b`. -/
def setPixel (fb : Framebuffer) (r : Fin Config.height) (c : Fin Config.width) (b : Bool) : Framebuffer :=
  fb.set r.val (fb[r.val].set c.val b)

/-- Every pixel off. -/
def clearFramebuffer : Framebuffer := Vector.replicate Config.height (Vector.replicate Config.width false)

/-! ### Keypad (10_state.md R23) -/

/-- `key[k]`. -/
def State.keyPressed (s : State) (k : KeyIx) : Bool := s.key[k.val]

/-- The pressed key of the lowest index (40_cycle.md R69: keys are scanned in ascending index order). -/
def firstPressed (keys : Keypad) : Option KeyIx := (List.finRange 16).find? fun k => keys[k.val]

/-! ### Taking a fault (60_exceptions.md R115, R117)

There is no return from a fault and no handler (R120): the block stays halted. -/

/-- The fault's code (R115). -/
def FaultCause.code : FaultCause → Nat
  | .illegalInstruction _ => 1
  | .stackOverflow => 2
  | .stackUnderflow => 3
  | .memoryOutOfRange _ => 4
  | .keyOutOfRange _ => 5

/-- The info it records, as a number (R115). -/
def FaultCause.info : FaultCause → Option Nat
  | .illegalInstruction w => some w.toNat
  | .stackOverflow => none
  | .stackUnderflow => none
  | .memoryOutOfRange a => some a
  | .keyOutOfRange v => some v.toNat

/-- `raise`: `fault <- (code, info, pc)`, and nothing else changes (R117). -/
def State.raise (s : State) (c : FaultCause) : State := { s with fault := some ⟨c, s.pc⟩ }

/-- The outcome of an instruction that raises a fault: the halted state (R117, R118). -/
def takeFault (c : FaultCause) (s : State) : Result := .next (s.raise c)

/-- Do `k` when the `n` addresses from `base` are all in memory; else raise MemoryOutOfRange with the first
that is not (20_memory.md R41). -/
def inRange (base n : Nat) (s : State) (k : Result) : Result :=
  match firstOutside base n with
  | some a => takeFault (.memoryOutOfRange a) s
  | none => k

end Sys2Proof.Machine
end

