-- ==== Sys2Proof/Machine/Flags.lean ====
section
/-! DEFINITION. The values written to the flag register `V[0xF]` (10_state.md R15, 43_alu.md R89, R97 to R101,
41_display.md R79), and the arithmetic results beside them (R88). -/

namespace Sys2Proof.Machine

/-- `bool(c)`: 1 when the condition holds, else 0 (00_scope.md R7). -/
def flagOf (c : Bool) : Byte := if c then 1 else 0

/-- The low 8 bits of the integer sum (R88). -/
def add8 (a b : Byte) : Byte := BitVec.ofNat 8 (a.toNat + b.toNat)

/-- The carry: `bool(a + b > 0xFF)` (R97). -/
def carryFlag (a b : Byte) : Byte := flagOf (0xFF < a.toNat + b.toNat)

/-- The integer difference modulo 256: `trunc_8(a - b + 256)` (R88). -/
def sub8 (a b : Byte) : Byte := BitVec.ofNat 8 (a.toNat + 256 - b.toNat)

/-- `subflag(a, b)` for each value of `SUB_FLAG_POLARITY` (R89). -/
def subFlag (polarity : Config.SubFlagPolarity) (a b : Byte) : Byte :=
  match polarity with
  | .borrow => flagOf (a.toNat < b.toNat)
  | .notBorrow => flagOf (b.toNat ≤ a.toNat)
  | .greater => flagOf (b.toNat < a.toNat)

/-- `src[7:1]`: the logical shift right by one (R99). -/
def shr8 (src : Byte) : Byte := src >>> 1

/-- `src[0]`, the bit shifted out to the right (R99). -/
def shrFlag (src : Byte) : Byte := flagOf (src.getLsbD 0)

/-- `src[6:0] ++ 0`: the shift left by one (R101). -/
def shl8 (src : Byte) : Byte := src <<< 1

/-- `src[7]`, the bit shifted out to the left (R101). -/
def shlFlag (src : Byte) : Byte := flagOf (src.getLsbD 7)

end Sys2Proof.Machine
end

