-- ==== Sys2Proof/Machine/Operands.lean ====
section
/-! DEFINITION. The operands the instructions compute with (30_encoding.md R51): the zero-extended address, the
shift's source register, the glyph address, the key index, the sprite's bits and pixels, the decimal digits. -/

namespace Sys2Proof.Machine

/-- `zext_16(NNN)` (R51). -/
def addrWord (nnn : Addr) : Word := nnn.setWidth 16

/-- The target of JP V0, addr: `zext_16(NNN) + zext_16(V[0])` (42_control_flow.md R87). -/
def jumpTarget (nnn : Addr) (v0 : Byte) : Word := addrWord nnn + v0.setWidth 16

/-- `SHIFT_SOURCE`: `VX`, the spec's default, which R6 says this hardware has (D12). Log 5. -/
def shiftSource : Config.ShiftSource := .vx

/-- The value 8XY6 and 8XYE shift (43_alu.md R99, R101). -/
def shiftOperand (src : Config.ShiftSource) (x y : RegIx) (s : State) : Byte :=
  match src with
  | .vx => s.getV x
  | .vy => s.getV y

/-- The address of the glyph of a value's low nibble (44_index_memory.md R105). -/
def glyphAddress (v : Byte) : Word := BitVec.ofNat 16 (Config.fontBase + Config.glyphStride * (v.toNat % 16))

/-- The key a register value names: none above 0xF (45_keypad_timers.md R109). -/
def keyOf (v : Byte) : Option KeyIx := if h : v.toNat < 16 then some ⟨v.toNat, h⟩ else none

/-- Column `c` of a sprite row, column 0 leftmost: bit `7 - c` (41_display.md R79).
PRESUMED by the spec (its D5, general knowledge); log 8. -/
def spriteBit (row : Byte) (c : Nat) : Bool := row.getLsbD (7 - c)

/-- The framebuffer row of sprite row `r` drawn at `y0`: wrapped modulo `HEIGHT` (R79). -/
def pixelRow (y0 : Byte) (r : Nat) : Fin Config.height := Fin.ofNat Config.height (y0.toNat + r)

/-- The framebuffer column of sprite column `c` drawn at `x0`: wrapped modulo `WIDTH` (R79). -/
def pixelCol (x0 : Byte) (c : Nat) : Fin Config.width := Fin.ofNat Config.width (x0.toNat + c)

/-- Hundreds, tens and units of a value (44_index_memory.md R106). -/
def decimalDigits (v : Byte) : List Byte :=
  [BitVec.ofNat 8 (v.toNat / 100), BitVec.ofNat 8 (v.toNat / 10 % 10), BitVec.ofNat 8 (v.toNat % 10)]

end Sys2Proof.Machine
end

