-- ==== Sys2Proof/Machine/Alu.lean ====
section
/-! DEFINITION. The ALU instructions (43_alu.md R88 to R102). None accesses memory and none faults. -/

namespace Sys2Proof.Machine

/-- Write the result to `V[x]`, then the flag to `V[0xF]`, then `advance(2)`: the flag is written last (R90). -/
def State.writeBack (s : State) (x : RegIx) (result flag : Byte) : State :=
  ((s.setV x result).setFlag flag).advance 2

/-- 6XNN LD Vx, byte (R91). -/
def execLdImm (x : RegIx) (nn : Byte) (s : State) : Result := .next ((s.setV x nn).advance 2)

/-- 7XNN ADD Vx, byte (R92). -/
def execAddImm (x : RegIx) (nn : Byte) (s : State) : Result :=
  .next ((s.setV x (add8 (s.getV x) nn)).advance 2)

/-- 8XY0 LD Vx, Vy (R93). -/
def execLdReg (x y : RegIx) (s : State) : Result := .next ((s.setV x (s.getV y)).advance 2)

/-- 8XY1 OR Vx, Vy (R94). -/
def execOr (x y : RegIx) (s : State) : Result := .next ((s.setV x (s.getV x ||| s.getV y)).advance 2)

/-- 8XY2 AND Vx, Vy (R95). -/
def execAnd (x y : RegIx) (s : State) : Result := .next ((s.setV x (s.getV x &&& s.getV y)).advance 2)

/-- 8XY3 XOR Vx, Vy (R96). -/
def execXor (x y : RegIx) (s : State) : Result := .next ((s.setV x (s.getV x ^^^ s.getV y)).advance 2)

/-- 8XY4 ADD Vx, Vy (R97). -/
def execAddReg (x y : RegIx) (s : State) : Result :=
  let a := s.getV x
  let b := s.getV y
  .next (s.writeBack x (add8 a b) (carryFlag a b))

/-- 8XY5 SUB Vx, Vy (R98). -/
def execSub (x y : RegIx) (s : State) : Result :=
  let a := s.getV x
  let b := s.getV y
  .next (s.writeBack x (sub8 a b) (subFlag Config.subFlagPolarity a b))

/-- 8XY6 SHR Vx, Vy (R99). -/
def execShr (x y : RegIx) (s : State) : Result :=
  let src := shiftOperand shiftSource x y s
  .next (s.writeBack x (shr8 src) (shrFlag src))

/-- 8XY7 SUBN Vx, Vy (R100). -/
def execSubn (x y : RegIx) (s : State) : Result :=
  let a := s.getV y
  let b := s.getV x
  .next (s.writeBack x (sub8 a b) (subFlag Config.subFlagPolarity a b))

/-- 8XYE SHL Vx, Vy (R101). -/
def execShl (x y : RegIx) (s : State) : Result :=
  let src := shiftOperand shiftSource x y s
  .next (s.writeBack x (shl8 src) (shlFlag src))

/-- CXNN RND Vx, byte (R102): `draw_random()` is the tick's random input (10_state.md R27). -/
def execRnd (x : RegIx) (nn : Byte) (s : State) : Result := .next ((s.setV x (s.rnd &&& nn)).advance 2)

end Sys2Proof.Machine
end

