-- ==== Sys2Proof/Machine/ControlFlow.lean ====
section
/-! DEFINITION. The control-flow instructions (42_control_flow.md R80 to R87). -/

namespace Sys2Proof.Machine

/-- 00EE RET (R80). -/
def execRet (s : State) : Result :=
  match s.pop with
  | none => takeFault .stackUnderflow s
  | some (ret, s') => .next (s'.setPc ret)

/-- 1NNN JP addr (R81). -/
def execJp (nnn : Addr) (s : State) : Result := .next (s.setPc (addrWord nnn))

/-- 2NNN CALL addr (R82). -/
def execCall (nnn : Addr) (s : State) : Result :=
  match s.push (s.pc + 2) with
  | none => takeFault .stackOverflow s
  | some s' => .next (s'.setPc (addrWord nnn))

/-- 3XNN SE Vx, byte (R83). -/
def execSeImm (x : RegIx) (nn : Byte) (s : State) : Result := .next (s.skipIf (s.getV x == nn))

/-- 4XNN SNE Vx, byte (R84). -/
def execSneImm (x : RegIx) (nn : Byte) (s : State) : Result := .next (s.skipIf (s.getV x != nn))

/-- 5XY0 SE Vx, Vy (R85). -/
def execSeReg (x y : RegIx) (s : State) : Result := .next (s.skipIf (s.getV x == s.getV y))

/-- 9XY0 SNE Vx, Vy (R86). -/
def execSneReg (x y : RegIx) (s : State) : Result := .next (s.skipIf (s.getV x != s.getV y))

/-- BNNN JP V0, addr (R87). -/
def execJpV0 (nnn : Addr) (s : State) : Result := .next (s.setPc (jumpTarget nnn (s.getV 0)))

end Sys2Proof.Machine
end

