-- ==== Sys2Proof/Machine/Display.lean ====
section
/-! DEFINITION. The display instructions (41_display.md R78, R79). -/

namespace Sys2Proof.Machine

/-- What the loops of DRW build up: the framebuffer and whether an on-pixel was turned off (R79). -/
structure Drawing where
  fb : Framebuffer
  collision : Bool
  deriving DecidableEq, Repr

/-- The body of R79's inner loop: sprite bit `c` of row `r` XORed into its pixel. -/
def drawPixel (x0 y0 : Byte) (bits : Byte) (r c : Nat) (d : Drawing) : Drawing :=
  if spriteBit bits c then
    let row := pixelRow y0 r
    let col := pixelCol x0 c
    let on := getPixel d.fb row col
    ⟨setPixel d.fb row col (!on), d.collision || on⟩
  else d

/-- R79's inner loop: columns 0 to 7 of sprite row `r`. -/
def drawRow (x0 y0 : Byte) (bits : Byte) (r : Nat) (d : Drawing) : Drawing :=
  (List.range 8).foldl (fun acc c => drawPixel x0 y0 bits r c acc) d

/-- R79's outer loop: the sprite's rows from row `r` on, top first. -/
def drawRows (x0 y0 : Byte) : List Byte → Nat → Drawing → Drawing
  | [], _, d => d
  | bits :: rest, r, d => drawRows x0 y0 rest (r + 1) (drawRow x0 y0 bits r d)

/-- 00E0 CLS (R78). -/
def execCls (s : State) : Result :=
  .next ({ s with fb := clearFramebuffer, changed := true }.advance 2)

/-- DXYN DRW (R79): operands first, then the range check, the loops, the flag, `changed`. -/
def execDrw (x y : RegIx) (n : Rows) (s : State) : Result :=
  inRange s.I.toNat n.val s <|
    let sprite := Memory.readBytes s.mem s.I.toNat n.val
    let d := drawRows (s.getV x) (s.getV y) sprite 0 ⟨s.fb, false⟩
    .next ({ s.setFlag (flagOf d.collision) with fb := d.fb, changed := true }.advance 2)

end Sys2Proof.Machine
end

