-- ==== Sys2Proof/Machine/IndexMemory.lean ====
section
/-! DEFINITION. The index-register and memory instructions (44_index_memory.md R103 to R108). -/

namespace Sys2Proof.Machine

/-- ANNN LD I, addr (R103). -/
def execLdI (nnn : Addr) (s : State) : Result := .next ((s.setI (addrWord nnn)).advance 2)

/-- FX1E ADD I, Vx (R104): the sum is kept to 16 bits and no flag is written. -/
def execAddIV (x : RegIx) (s : State) : Result :=
  .next ((s.setI (s.I + (s.getV x).setWidth 16)).advance 2)

/-- FX29 LD F, Vx (R105). -/
def execLdFV (x : RegIx) (s : State) : Result := .next ((s.setI (glyphAddress (s.getV x))).advance 2)

/-- FX33 LD B, Vx (R106). -/
def execLdBV (x : RegIx) (s : State) : Result :=
  inRange s.I.toNat 3 s <| .next ((s.storeBytes s.I.toNat (decimalDigits (s.getV x))).advance 2)

/-- FX55 LD [I], Vx (R107): `V[0]` to `V[X]`; `I` is unchanged. -/
def execLdMemV (x : RegIx) (s : State) : Result :=
  inRange s.I.toNat (x.val + 1) s <| .next ((s.storeBytes s.I.toNat (s.firstRegs (x.val + 1))).advance 2)

/-- FX65 LD Vx, [I] (R108): register `i` from `I + i`; `I` is unchanged. -/
def execLdVMem (x : RegIx) (s : State) : Result :=
  inRange s.I.toNat (x.val + 1) s <| .next ((s.loadRegs s.I.toNat (x.val + 1)).advance 2)

end Sys2Proof.Machine
end

