-- ==== Sys2Proof/Machine/KeypadTimers.lean ====
section
/-! DEFINITION. The keypad and timer instructions (45_keypad_timers.md R109 to R114). -/

namespace Sys2Proof.Machine

/-- EX9E SKP Vx (R109). -/
def execSkp (x : RegIx) (s : State) : Result :=
  match keyOf (s.getV x) with
  | none => takeFault (.keyOutOfRange (s.getV x)) s
  | some k => .next (s.skipIf (s.keyPressed k))

/-- EXA1 SKNP Vx (R110). -/
def execSknp (x : RegIx) (s : State) : Result :=
  match keyOf (s.getV x) with
  | none => takeFault (.keyOutOfRange (s.getV x)) s
  | some k => .next (s.skipIf (!s.keyPressed k))

/-- FX07 LD Vx, DT (R111). -/
def execLdVDt (x : RegIx) (s : State) : Result := .next ((s.setV x s.DT).advance 2)

/-- FX0A LD Vx, K (R112): the wait starts with the next tick. -/
def execLdVK (x : RegIx) (s : State) : Result :=
  .next ({ s with waiting := true, waitReg := x }.advance 2)

/-- FX15 LD DT, Vx (R113). -/
def execLdDtV (x : RegIx) (s : State) : Result := .next ({ s with DT := s.getV x }.advance 2)

/-- FX18 LD ST, Vx (R114). -/
def execLdStV (x : RegIx) (s : State) : Result := .next ({ s with ST := s.getV x }.advance 2)

end Sys2Proof.Machine
end

