-- ==== Sys2Proof/Machine/Tick.lean ====
section
/-! DEFINITION. The host's transactions (70_reset_and_hazards.md R135): `Tick` with its steps (40_cycle.md R65 to
R77), `Load` (70_reset_and_hazards.md R132), the tick's result and the status output. -/

namespace Sys2Proof.Machine

/-- The block is halted (10_state.md R26). -/
def State.halted (s : State) : Bool := s.fault.isSome

/-- Steps 1 and 2: latch the keypad, clear the changed flag (R67, R68). -/
def State.latch (s : State) (keypad : Keypad) : State := { s with key := keypad, changed := false }

/-- Step 3, the waiting tick: the pressed key of the lowest index ends the wait (R69). -/
def State.scanKeys (s : State) : State :=
  match firstPressed s.key with
  | some k => { s.setV s.waitReg (BitVec.ofNat 8 k.val) with waiting := false }
  | none => s

/-- One timer: down by one while it is greater than zero (R70). -/
def decay (t : Byte) : Byte := if 0 < t.toNat then t - 1 else t

/-- Step 4a: both timers decay (R70). -/
def State.decayTimers (s : State) : State := { s with DT := decay s.DT, ST := decay s.ST }

/-- The instruction word at an address, high byte first (20_memory.md R38). -/
def State.wordAt (s : State) (a : Nat) : Word := wordOfBytes (s.readByte a) (s.readByte (a + 1))

/-- Step 4c: decode and execute, the random byte in reach of the instruction (R72). -/
def State.executeWord (s : State) (w : Word) (rnd : Byte) : Result :=
  match decodeWord w with
  | .error _ => takeFault (.illegalInstruction w) s
  | .ok i => exec i { s with rnd := rnd }

/-- Steps 4b and 4c: fetch, decode, execute (R71, R72). The fetch does not change `pc`. -/
def State.fetchExecute (s : State) (rnd : Byte) : Result :=
  inRange s.pc.toNat 2 s (s.executeWord (s.wordAt s.pc.toNat) rnd)

/-- `Tick(keypad, rnd)` (R76). -/
def tick (keypad : Keypad) (rnd : Byte) (s : State) : Result :=
  if s.halted then .next s
  else if s.waiting then .next (s.latch keypad).scanKeys
  else (s.latch keypad).decayTimers.fetchExecute rnd

/-- `Load(data)`: bytes from 0x200 up, the ones past the end of memory dropped; nothing else changes (R132). -/
def State.load (s : State) (data : List Byte) : State :=
  { s with mem := Memory.load s.mem Config.programBase data }

/-- What a tick returns: the framebuffer, the changed flag, the fault (40_cycle.md R65, R75). -/
structure TickResult where
  fb : Framebuffer
  changed : Bool
  fault : Option FaultRecord
  deriving DecidableEq, Repr

/-- The result the host gets from the tick that left this state (R75). -/
def State.tickResult (s : State) : TickResult := ⟨s.fb, s.changed, s.fault⟩

/-- The status output: `ST ≠ 0` (10_state.md R21). -/
def State.soundActive (s : State) : Bool := s.ST != 0

/-- One transaction of the host: the script's next, or, when the script is empty, a tick with free inputs (log 1). -/
def hostTransaction (s : State) : Result :=
  match s.script with
  | [] => tick (Config.freeKeypad s.freeTicks) (Config.freeRnd s.freeTicks) { s with freeTicks := s.freeTicks + 1 }
  | .tick keypad rnd :: rest => tick keypad rnd { s with script := rest }
  | .load data :: rest => .next ({ s with script := rest }.load data)

/-- Whether a transaction is a tick. -/
def HostCall.isTick : HostCall → Bool
  | .tick _ _ => true
  | .load _ => false

/-- The state whose next transaction is a tick that fetches: not halted, not waiting, `pc` at two bytes of memory
(else at 0x200), no load before the next tick; a state that fetches already is left as it is. -/
def State.readyToFetch (s : State) : State :=
  { s with
    fault := none
    waiting := false
    pc := if s.pc.toNat + 1 ≤ 0xFFF then s.pc else BitVec.ofNat 16 Config.programBase
    script := s.script.dropWhile fun c => !c.isTick }

end Sys2Proof.Machine
end

