-- ==== Sys2Proof/Machine/Step.lean ====
section
/-! DEFINITION. One step of the model: one transaction of the host, a tick unless the script says a load
(40_cycle.md R65, 70_reset_and_hazards.md R135). -/

namespace Sys2Proof.Machine

/-- One step. -/
def step (s : State) : Host.Outcome State Fault Refusal := hostTransaction s

/-- The state with the instruction word `w` of `nbits` bits stored where the next step fetches, high byte first
(20_memory.md R38), and made ready to fetch it. -/
def State.withFetchWord (s : State) (nbits w : Nat) : State :=
  let t := s.readyToFetch
  let word := BitVec.ofNat 16 (w % 2 ^ nbits)
  t.storeBytes t.pc.toNat [word.extractLsb' 8 8, word.extractLsb' 0 8]

end Sys2Proof.Machine
end

