-- ==== Sys2Proof/Safety.lean ====
section
/-! DEFINITION. What claims about the block are stated in: the invariant of its runs, what an instruction leaves as
it was, and the fault a tick must raise (60_exceptions.md R119). -/

namespace Sys2Proof.Machine

/-- A safe state: no fatal fault is recorded (70_reset_and_hazards.md R137). -/
def State.safe (s : State) : Prop := s.fault = none

/-- What every state of every run satisfies. -/
structure State.Inv (s : State) : Prop where
  /-- the memory is in canonical form, and every cell is one of the array's addresses (20_memory.md R32) -/
  memoryCanonical : Memory.wf s.mem
  /-- no new `pc` is above 0x10FE (40_cycle.md R74) -/
  pcBound : s.pc.toNat ≤ 0x10FE
  /-- no return address is above 0x1000 (R74) -/
  returnBound : ∀ k : Fin 16, s.stack[k.val].toNat ≤ 0x1000
  /-- a halted block stands at the instruction that faulted, is not waiting, and its tick drew nothing
  (60_exceptions.md R117, R118) -/
  haltedAt : ∀ f, s.fault = some f → f.pc = s.pc ∧ s.waiting = false ∧ s.changed = false
  /-- a waiting block's last tick drew nothing (40_cycle.md R75) -/
  waitingUnchanged : s.waiting = true → s.changed = false

/-! ### Frames -/

/-- Every byte of memory reads as before. -/
def keepsMemory (s t : State) : Prop := ∀ a, t.readByte a = s.readByte a

/-- Every byte of memory outside the `n` bytes from `base` reads as before. -/
def keepsMemoryOutside (base n : Nat) (s t : State) : Prop :=
  ∀ a, a < base ∨ base + n ≤ a → t.readByte a = s.readByte a

/-- Every general register but the listed ones reads as before. -/
def keepsRegsBut (written : List RegIx) (s t : State) : Prop := ∀ r, r ∉ written → t.getV r = s.getV r

/-- Nothing but `pc` changes. -/
def onlyPc (s t : State) : Prop := t = { s with pc := t.pc } ∧ keepsMemory s t

/-- Nothing but the listed registers and `pc` changes. -/
def onlyRegsAndPc (written : List RegIx) (s t : State) : Prop :=
  t = { s with V := t.V, pc := t.pc } ∧ keepsRegsBut written s t ∧ keepsMemory s t

/-- Nothing but `I` and `pc` changes. -/
def onlyIndexAndPc (s t : State) : Prop := t = { s with I := t.I, pc := t.pc } ∧ keepsMemory s t

/-- Nothing but the `n` bytes from `base` and `pc` changes. -/
def onlyBytesAndPc (base n : Nat) (s t : State) : Prop :=
  t = { s with mem := t.mem, pc := t.pc } ∧ keepsMemoryOutside base n s t

/-- Nothing but the fault record changes: the instruction raised the fault and wrote nothing (R117, R118). -/
def onlyRaised (c : FaultCause) (s t : State) : Prop :=
  t = { s with fault := some ⟨c, s.pc⟩ } ∧ keepsMemory s t

/-! ### Loads -/

/-- Memory after the loads of a list of host transactions, in their order; a tick of the list counts for nothing
(70_reset_and_hazards.md R132). -/
def afterLoads : Memory → List HostCall → Memory
  | m, [] => m
  | m, .load data :: rest => afterLoads (Memory.load m Config.programBase data) rest
  | m, .tick _ _ :: rest => afterLoads m rest

/-! ### Sprites -/

/-- Whether the sprite of `n` rows at `base`, drawn at column `V[X] = x0` and row `V[Y] = y0`, has a set bit on
pixel (`row`, `col`): the pixel lies `dr` rows below and `dc` columns right of the start, modulo the screen
(41_display.md R79). -/
def spriteHits (s : State) (x0 y0 : Byte) (n : Nat) (row : Fin Config.height) (col : Fin Config.width) : Bool :=
  let dr := (row.val + Config.height - y0.toNat % Config.height) % Config.height
  let dc := (col.val + Config.width - x0.toNat % Config.width) % Config.width
  decide (dr < n) && decide (dc < 8) && (s.readByte (s.I.toNat + dr)).getLsbD (7 - dc)

/-! ### The fault of a tick (R119) -/

/-- The first out-of-range address, where one of the `n` from `base` is above 0xFFF. -/
def rangeFault (base n : Nat) : Option FaultCause :=
  if 0 < n ∧ 0xFFF < base + n - 1 then some (.memoryOutOfRange (max base 0x1000)) else none

/-- The check each instruction makes of its own, of which it has at most one (R119). -/
def ownFault (i : Instr) (s : State) : Option FaultCause :=
  match i with
  | .call _ => if s.sp.val = 16 then some .stackOverflow else none
  | .ret => if s.sp.val = 0 then some .stackUnderflow else none
  | .drw _ _ n => rangeFault s.I.toNat n.val
  | .ldBV _ => rangeFault s.I.toNat 3
  | .ldMemV x => rangeFault s.I.toNat (x.val + 1)
  | .ldVMem x => rangeFault s.I.toNat (x.val + 1)
  | .skp x => if 0xF < (s.getV x).toNat then some (.keyOutOfRange (s.getV x)) else none
  | .sknp x => if 0xF < (s.getV x).toNat then some (.keyOutOfRange (s.getV x)) else none
  | _ => none

/-- The fault an executing tick raises, in the order of R119: fetch range, decode, the instruction's own check. -/
def tickFault (s : State) : Option FaultCause :=
  match rangeFault s.pc.toNat 2 with
  | some c => some c
  | none =>
    match decodeWord (s.wordAt s.pc.toNat) with
    | .error _ => some (.illegalInstruction (s.wordAt s.pc.toNat))
    | .ok i => ownFault i s

end Sys2Proof.Machine
end

