-- ==== Sys2Proof/Certificates/Slice0/Obligations.lean ====
section
/-! DEFINITION. The statements for the provers. Each docstring names the rule of spec/ the statement formalises. -/

open Sys2Proof Sys2Proof.Machine

/-! ### Construction -/

/-- 70_reset_and_hazards.md R129: the construction state, every element of the table. Its last clause,
`sound_active = 0`, is the row that the spec marks as its own inference ("[derived: from `ST = 0` and 10_state.md rule
R21]"), so the basis is 'derived'. -/
def Obligations.ConstructionState : Prop :=
  (∀ d : Fin 16, ∀ r : Fin 5, State.reset.readByte (5 * d.val + r.val) = (font.getD d.val []).getD r.val 0) ∧
  (∀ a, 0x050 ≤ a → a ≤ 0xFFF → State.reset.readByte a = 0x00) ∧
  (∀ r, State.reset.getV r = 0x00) ∧ State.reset.I = 0x0000 ∧ State.reset.pc = 0x0200 ∧
  State.reset.sp = 0 ∧ (∀ k : Fin 16, State.reset.stack[k.val] = 0x0000) ∧
  State.reset.DT = 0 ∧ State.reset.ST = 0 ∧ State.reset.waiting = false ∧ State.reset.waitReg = 0 ∧
  State.reset.changed = false ∧ (∀ k, State.reset.keyPressed k = false) ∧
  (∀ r c, getPixel State.reset.fb r c = false) ∧ State.reset.fault = none ∧ State.reset.soundActive = false

/-- 20_memory.md R35: the 80 bytes of the font atlas, the glyphs of digits 0 to 7 and 8 to F; the low nibble of
every glyph byte is zero. -/
def Obligations.FontAtlasBytes : Prop :=
  Memory.readBytes State.reset.mem 0x000 40 =
    [0xF0, 0x90, 0x90, 0x90, 0xF0, 0x20, 0x60, 0x20, 0x20, 0x70,
     0xF0, 0x10, 0xF0, 0x80, 0xF0, 0xF0, 0x10, 0xF0, 0x10, 0xF0,
     0x90, 0x90, 0xF0, 0x10, 0x10, 0xF0, 0x80, 0xF0, 0x10, 0xF0,
     0xF0, 0x80, 0xF0, 0x90, 0xF0, 0xF0, 0x10, 0x20, 0x40, 0x40] ∧
  Memory.readBytes State.reset.mem 0x028 40 =
    [0xF0, 0x90, 0xF0, 0x90, 0xF0, 0xF0, 0x90, 0xF0, 0x10, 0xF0,
     0xF0, 0x90, 0xF0, 0x90, 0x90, 0xE0, 0x90, 0xE0, 0x90, 0xE0,
     0xF0, 0x80, 0x80, 0x80, 0xF0, 0xE0, 0x90, 0x90, 0x90, 0xE0,
     0xF0, 0x80, 0xF0, 0x80, 0xF0, 0xF0, 0x80, 0xF0, 0x80, 0x80] ∧
  (∀ a : Fin 80, (State.reset.readByte a.val).toNat % 16 = 0)

/-! ### Encoding -/

/-- Decoding an instruction's word gives the instruction back, every operand at every value. -/
def Obligations.DecodeOfEncode : Prop := ∀ i : Instr, decodeWord (encode i) = .ok i

/-- Where a word decodes, encoding gives it back but for the bits that select nothing (30_encoding.md R53, R54),
which the encoder leaves zero (R63). -/
def Obligations.EncodeOfDecode : Prop :=
  ∀ (w : Word) (i : Instr), decodeWord w = .ok i → encode i = w &&& i.decodedBits

/-- 30_encoding.md R59: a word decodes to an instruction of exactly the row whose mask and match it fits, and to
none when it fits no row. -/
def Obligations.DecodeFollowsOpcodeMap : Prop :=
  ∀ w : Word,
    (∀ i, decodeWord w = .ok i → i.row.matchesWord w = true) ∧
    (∀ r ∈ opcodeTable, r.matchesWord w = true → ∃ i, decodeWord w = .ok i ∧ i.row = r)

/-- 30_encoding.md R52 and R54: the twelve groups of one instruction; every word of the group decodes to it, with
the fields of R49 as numbers; the canonical words of groups 0x5 and 0x9 have N = 0. -/
def Obligations.SingleInstructionGroups : Prop :=
  (∀ x y : RegIx, (encode (.seReg x y)).toNat % 16 = 0 ∧ (encode (.sneReg x y)).toNat % 16 = 0) ∧
  ∀ w : Word,
    let g := w.toNat / 4096
    let x : RegIx := Fin.ofNat 16 (w.toNat / 256)
    let y : RegIx := Fin.ofNat 16 (w.toNat / 16)
    let n : Rows := Fin.ofNat 16 w.toNat
    let nn : Byte := BitVec.ofNat 8 w.toNat
    let nnn : Addr := BitVec.ofNat 12 w.toNat
    (g = 0x1 → decodeWord w = .ok (.jp nnn)) ∧ (g = 0x2 → decodeWord w = .ok (.call nnn)) ∧
    (g = 0x3 → decodeWord w = .ok (.seImm x nn)) ∧ (g = 0x4 → decodeWord w = .ok (.sneImm x nn)) ∧
    (g = 0x5 → decodeWord w = .ok (.seReg x y)) ∧ (g = 0x6 → decodeWord w = .ok (.ldImm x nn)) ∧
    (g = 0x7 → decodeWord w = .ok (.addImm x nn)) ∧ (g = 0x9 → decodeWord w = .ok (.sneReg x y)) ∧
    (g = 0xA → decodeWord w = .ok (.ldI nnn)) ∧ (g = 0xB → decodeWord w = .ok (.jpV0 nnn)) ∧
    (g = 0xC → decodeWord w = .ok (.rnd x nn)) ∧ (g = 0xD → decodeWord w = .ok (.drw x y n))

/-- 30_encoding.md R53, R55, R56, R57: the second-level dispatch of groups 0x0, 0x8, 0xE and 0xF; every other
sub-opcode is illegal, rejected under its group's name with the sub-opcode. The canonical words of CLS and RET. -/
def Obligations.SecondLevelDispatch : Prop :=
  encode .cls = 0x00E0 ∧ encode .ret = 0x00EE ∧
  ∀ w : Word,
    let x : RegIx := Fin.ofNat 16 (w.toNat / 256)
    let y : RegIx := Fin.ofNat 16 (w.toNat / 16)
    let nn : Byte := BitVec.ofNat 8 w.toNat
    (w.toNat / 4096 = 0x0 → decodeWord w = match w.toNat % 256 with
      | 0xE0 => .ok .cls | 0xEE => .ok .ret | _ => .error (.group0 nn)) ∧
    (w.toNat / 4096 = 0x8 → decodeWord w = match w.toNat % 16 with
      | 0x0 => .ok (.ldReg x y) | 0x1 => .ok (.or x y) | 0x2 => .ok (.and x y) | 0x3 => .ok (.xor x y)
      | 0x4 => .ok (.addReg x y) | 0x5 => .ok (.sub x y) | 0x6 => .ok (.shr x y) | 0x7 => .ok (.subn x y)
      | 0xE => .ok (.shl x y) | _ => .error (.group8 (BitVec.ofNat 4 w.toNat))) ∧
    (w.toNat / 4096 = 0xE → decodeWord w = match w.toNat % 256 with
      | 0x9E => .ok (.skp x) | 0xA1 => .ok (.sknp x) | _ => .error (.groupE nn)) ∧
    (w.toNat / 4096 = 0xF → decodeWord w = match w.toNat % 256 with
      | 0x07 => .ok (.ldVDt x) | 0x0A => .ok (.ldVK x) | 0x15 => .ok (.ldDtV x) | 0x18 => .ok (.ldStV x)
      | 0x1E => .ok (.addIV x) | 0x29 => .ok (.ldFV x) | 0x33 => .ok (.ldBV x) | 0x55 => .ok (.ldMemV x)
      | 0x65 => .ok (.ldVMem x) | _ => .error (.groupF nn))

/-- 30_encoding.md R63, R64: the instruction and the operands of each form of R59's syntax column, in its order, `SHR` and
`SHL` with and without `Vy`: the line assembles to one word, that instruction's, which decodes to it. And every
well-formed line assembles to a word of an instruction, an ill-formed line to none. The shape of a line, `Line.wf` and
the refusal of an ill-formed line are the model's choice (log 9), so the basis is 'derived'. -/
def Obligations.AssemblyRoundTrip : Prop :=
  (∀ (x y : RegIx) (n : Rows) (nn : Byte) (nnn : Addr),
    let asm := fun (l : Line) (i : Instr) =>
      l.wf = true ∧ l.instr = some i ∧ assemble l = some (encode i) ∧ decodeWord (encode i) = .ok i
    asm ⟨.cls, []⟩ .cls ∧
    asm ⟨.ret, []⟩ .ret ∧
    asm ⟨.jp, [.addr nnn.toNat]⟩ (.jp nnn) ∧
    asm ⟨.call, [.addr nnn.toNat]⟩ (.call nnn) ∧
    asm ⟨.se, [.v x.val, .byte nn.toNat]⟩ (.seImm x nn) ∧
    asm ⟨.sne, [.v x.val, .byte nn.toNat]⟩ (.sneImm x nn) ∧
    asm ⟨.se, [.v x.val, .v y.val]⟩ (.seReg x y) ∧
    asm ⟨.ld, [.v x.val, .byte nn.toNat]⟩ (.ldImm x nn) ∧
    asm ⟨.add, [.v x.val, .byte nn.toNat]⟩ (.addImm x nn) ∧
    asm ⟨.ld, [.v x.val, .v y.val]⟩ (.ldReg x y) ∧
    asm ⟨.or, [.v x.val, .v y.val]⟩ (.or x y) ∧
    asm ⟨.and, [.v x.val, .v y.val]⟩ (.and x y) ∧
    asm ⟨.xor, [.v x.val, .v y.val]⟩ (.xor x y) ∧
    asm ⟨.add, [.v x.val, .v y.val]⟩ (.addReg x y) ∧
    asm ⟨.sub, [.v x.val, .v y.val]⟩ (.sub x y) ∧
    asm ⟨.shr, [.v x.val]⟩ (.shr x 0) ∧
    asm ⟨.shr, [.v x.val, .v y.val]⟩ (.shr x y) ∧
    asm ⟨.subn, [.v x.val, .v y.val]⟩ (.subn x y) ∧
    asm ⟨.shl, [.v x.val]⟩ (.shl x 0) ∧
    asm ⟨.shl, [.v x.val, .v y.val]⟩ (.shl x y) ∧
    asm ⟨.sne, [.v x.val, .v y.val]⟩ (.sneReg x y) ∧
    asm ⟨.ld, [.i, .addr nnn.toNat]⟩ (.ldI nnn) ∧
    asm ⟨.jp, [.v 0, .addr nnn.toNat]⟩ (.jpV0 nnn) ∧
    asm ⟨.rnd, [.v x.val, .byte nn.toNat]⟩ (.rnd x nn) ∧
    asm ⟨.drw, [.v x.val, .v y.val, .nibble n.val]⟩ (.drw x y n) ∧
    asm ⟨.skp, [.v x.val]⟩ (.skp x) ∧
    asm ⟨.sknp, [.v x.val]⟩ (.sknp x) ∧
    asm ⟨.ld, [.v x.val, .dt]⟩ (.ldVDt x) ∧
    asm ⟨.ld, [.v x.val, .k]⟩ (.ldVK x) ∧
    asm ⟨.ld, [.dt, .v x.val]⟩ (.ldDtV x) ∧
    asm ⟨.ld, [.st, .v x.val]⟩ (.ldStV x) ∧
    asm ⟨.add, [.i, .v x.val]⟩ (.addIV x) ∧
    asm ⟨.ld, [.f, .v x.val]⟩ (.ldFV x) ∧
    asm ⟨.ld, [.b, .v x.val]⟩ (.ldBV x) ∧
    asm ⟨.ld, [.memI, .v x.val]⟩ (.ldMemV x) ∧
    asm ⟨.ld, [.v x.val, .memI]⟩ (.ldVMem x)) ∧
  ∀ l : Line,
    (l.wf = true → ∃ i w, l.instr = some i ∧ assemble l = some w ∧ decodeWord w = .ok i) ∧
    (l.wf = false → assemble l = none)

/-- A few words written out from the encodings of R59, and the instructions they stand for (the words of
95_test_vectors.md). -/
def Obligations.SampleWordsDecode : Prop :=
  decodeWord 0x6005 = .ok (.ldImm 0 5) ∧ decodeWord 0x7003 = .ok (.addImm 0 3) ∧ decodeWord 0x03E0 = .ok .cls ∧
  decodeWord 0x00EE = .ok .ret ∧ decodeWord 0x8104 = .ok (.addReg 1 0) ∧ decodeWord 0x5121 = .ok (.seReg 1 2) ∧
  decodeWord 0xD125 = .ok (.drw 1 2 5) ∧ decodeWord 0xA20C = .ok (.ldI 0x20C) ∧ decodeWord 0xE1A1 = .ok (.sknp 1) ∧
  decodeWord 0xF265 = .ok (.ldVMem 2) ∧ decodeWord 0x0123 = .error (.group0 0x23) ∧
  decodeWord 0x8008 = .error (.group8 0x8) ∧ decodeWord 0xE09F = .error (.groupE 0x9F) ∧
  decodeWord 0xFFFF = .error (.groupF 0xFF)

/-! ### Display -/

/-- 41_display.md R78: CLS. -/
def Obligations.ClsClearsScreen : Prop :=
  ∀ s : State, ∃ t, exec .cls s = .next t ∧ (∀ r c, getPixel t.fb r c = false) ∧ t.changed = true ∧
    t.pc = s.pc + 2 ∧ t = { s with fb := t.fb, changed := true, pc := t.pc } ∧ keepsMemory s t

/-- 41_display.md R79: DRW. Outside memory it faults and writes nothing; else each pixel is its old value XOR the
sprite's bit there, the flag is 1 exactly when an on-pixel was turned off, and `changed` is set. The position
formula is modulo the screen, so nothing is clipped; with N = 0 no pixel changes and the flag is 0. -/
def Obligations.DrwXorsSprite : Prop :=
  ∀ (x y : RegIx) (n : Rows) (s : State),
    (0 < n.val ∧ 0xFFF < s.I.toNat + n.val - 1 →
      ∃ t, exec (.drw x y n) s = .next t ∧ onlyRaised (.memoryOutOfRange (max s.I.toNat 0x1000)) s t) ∧
    (n.val = 0 ∨ s.I.toNat + n.val - 1 ≤ 0xFFF →
      ∃ t, exec (.drw x y n) s = .next t ∧
        (∀ r c, getPixel t.fb r c = Bool.xor (getPixel s.fb r c) (spriteHits s (s.getV x) (s.getV y) n.val r c)) ∧
        ((∃ r c, getPixel s.fb r c = true ∧ spriteHits s (s.getV x) (s.getV y) n.val r c = true) →
          t.getV 0xF = 1) ∧
        ((¬ ∃ r c, getPixel s.fb r c = true ∧ spriteHits s (s.getV x) (s.getV y) n.val r c = true) →
          t.getV 0xF = 0) ∧
        keepsRegsBut [0xF] s t ∧ t.changed = true ∧ t.pc = s.pc + 2 ∧ keepsMemory s t ∧
        t = { s with V := t.V, fb := t.fb, changed := true, pc := t.pc })

/-- 41_display.md R79, its last corner case, from the rule's pseudocode: a second DRW of the same sprite at the same
place restores every pixel, and its flag is 1 exactly when the first one turned a pixel on (log 11 says where the
rule's own sentence says more). The registers of the coordinates are not V[0xF], which the first draw overwrites. -/
def Obligations.DrwTwiceRestores : Prop :=
  ∀ (x y : RegIx) (n : Rows) (s : State), x ≠ 0xF → y ≠ 0xF → (n.val = 0 ∨ s.I.toNat + n.val - 1 ≤ 0xFFF) →
    ∃ t u, exec (.drw x y n) s = .next t ∧ exec (.drw x y n) t = .next u ∧
      (∀ r c, getPixel u.fb r c = getPixel s.fb r c) ∧
      (u.getV 0xF = 1 ↔ ∃ r c, getPixel s.fb r c = false ∧ getPixel t.fb r c = true)

/-! ### Control flow -/

/-- 42_control_flow.md R80: RET. -/
def Obligations.RetPops : Prop :=
  ∀ s : State,
    (s.sp.val = 0 → ∃ t, exec .ret s = .next t ∧ onlyRaised .stackUnderflow s t) ∧
    (∀ k : Fin 16, s.sp.val = k.val + 1 →
      ∃ t, exec .ret s = .next t ∧ t.sp.val = k.val ∧ t.pc = s.stack[k.val] ∧
        t = { s with sp := t.sp, pc := t.pc } ∧ keepsMemory s t)

/-- 42_control_flow.md R81: JP addr. -/
def Obligations.JpSetsPc : Prop :=
  ∀ (nnn : Addr) (s : State),
    ∃ t, exec (.jp nnn) s = .next t ∧ t.pc.toNat = nnn.toNat ∧ onlyPc s t

/-- 42_control_flow.md R82: CALL addr. -/
def Obligations.CallPushes : Prop :=
  ∀ (nnn : Addr) (s : State),
    (s.sp.val = 16 → ∃ t, exec (.call nnn) s = .next t ∧ onlyRaised .stackOverflow s t) ∧
    (∀ k : Fin 16, s.sp.val = k.val →
      ∃ t, exec (.call nnn) s = .next t ∧ t.stack[k.val] = s.pc + 2 ∧
        (∀ j : Fin 16, j ≠ k → t.stack[j.val] = s.stack[j.val]) ∧ t.sp.val = k.val + 1 ∧
        t.pc.toNat = nnn.toNat ∧ t = { s with stack := t.stack, sp := t.sp, pc := t.pc } ∧ keepsMemory s t)

/-- 42_control_flow.md R83 and R84: SE and SNE with an immediate. -/
def Obligations.SkipOnImmediate : Prop :=
  ∀ (x : RegIx) (nn : Byte) (s : State),
    (∃ t, exec (.seImm x nn) s = .next t ∧ onlyPc s t ∧
      t.pc = if s.getV x = nn then s.pc + 4 else s.pc + 2) ∧
    (∃ t, exec (.sneImm x nn) s = .next t ∧ onlyPc s t ∧
      t.pc = if s.getV x = nn then s.pc + 2 else s.pc + 4)

/-- 42_control_flow.md R85 and R86: SE and SNE of two registers; `X = Y` always skips and never skips. -/
def Obligations.SkipOnRegisters : Prop :=
  ∀ (x y : RegIx) (s : State),
    (∃ t, exec (.seReg x y) s = .next t ∧ onlyPc s t ∧
      t.pc = if s.getV x = s.getV y then s.pc + 4 else s.pc + 2) ∧
    (∃ t, exec (.sneReg x y) s = .next t ∧ onlyPc s t ∧
      t.pc = if s.getV x = s.getV y then s.pc + 2 else s.pc + 4)

/-- 42_control_flow.md R87: JP V0, addr; the integer sum, no wrap. -/
def Obligations.JpV0AddsRegisterZero : Prop :=
  ∀ (nnn : Addr) (s : State),
    ∃ t, exec (.jpV0 nnn) s = .next t ∧ t.pc.toNat = nnn.toNat + (s.getV 0).toNat ∧ onlyPc s t

/-- RET after CALL comes back to the address after the CALL with the stack pointer it had
(95_test_vectors.md S5, from R80 and R82), whatever the subroutine did to anything but the stack. -/
def Obligations.CallThenRetReturns : Prop :=
  ∀ (nnn : Addr) (s t u : State), s.sp.val < 16 → exec (.call nnn) s = .next t → u.stack = t.stack → u.sp = t.sp →
    ∃ v, exec .ret u = .next v ∧ v.pc = s.pc + 2 ∧ v.sp = s.sp ∧ v.stack = t.stack

/-! ### ALU -/

/-- 43_alu.md R91: LD Vx, byte. -/
def Obligations.LdImmWritesImmediate : Prop :=
  ∀ (x : RegIx) (nn : Byte) (s : State),
    ∃ t, exec (.ldImm x nn) s = .next t ∧ t.getV x = nn ∧ t.pc = s.pc + 2 ∧ onlyRegsAndPc [x] s t

/-- 43_alu.md R92: ADD Vx, byte: the sum modulo 256, no flag (V[0xF] changes only as the destination). -/
def Obligations.AddImmWritesSum : Prop :=
  ∀ (x : RegIx) (nn : Byte) (s : State),
    ∃ t, exec (.addImm x nn) s = .next t ∧ (t.getV x).toNat = ((s.getV x).toNat + nn.toNat) % 256 ∧
      t.pc = s.pc + 2 ∧ onlyRegsAndPc [x] s t

/-- 43_alu.md R93: LD Vx, Vy. -/
def Obligations.LdRegCopies : Prop :=
  ∀ (x y : RegIx) (s : State),
    ∃ t, exec (.ldReg x y) s = .next t ∧ t.getV x = s.getV y ∧ t.pc = s.pc + 2 ∧ onlyRegsAndPc [x] s t

/-- 43_alu.md R94, R95 and R96: OR, AND and XOR, bit by bit; no flag. -/
def Obligations.LogicBitByBit : Prop :=
  ∀ (x y : RegIx) (s : State),
    (∃ t, exec (.or x y) s = .next t ∧ t.pc = s.pc + 2 ∧ onlyRegsAndPc [x] s t ∧
      ∀ k : Fin 8, (t.getV x).getLsbD k.val = ((s.getV x).getLsbD k.val || (s.getV y).getLsbD k.val)) ∧
    (∃ t, exec (.and x y) s = .next t ∧ t.pc = s.pc + 2 ∧ onlyRegsAndPc [x] s t ∧
      ∀ k : Fin 8, (t.getV x).getLsbD k.val = ((s.getV x).getLsbD k.val && (s.getV y).getLsbD k.val)) ∧
    (∃ t, exec (.xor x y) s = .next t ∧ t.pc = s.pc + 2 ∧ onlyRegsAndPc [x] s t ∧
      ∀ k : Fin 8, (t.getV x).getLsbD k.val = Bool.xor ((s.getV x).getLsbD k.val) ((s.getV y).getLsbD k.val))

/-- 43_alu.md R97 (and R90): ADD Vx, Vy: the sum modulo 256 unless X is the flag register, and the flag 1 exactly
on carry, both from the values held before the instruction. -/
def Obligations.AddRegWritesSumAndCarry : Prop :=
  ∀ (x y : RegIx) (s : State),
    ∃ t, exec (.addReg x y) s = .next t ∧
      (x ≠ 0xF → (t.getV x).toNat = ((s.getV x).toNat + (s.getV y).toNat) % 256) ∧
      t.getV 0xF = (if 0xFF < (s.getV x).toNat + (s.getV y).toNat then 1 else 0) ∧
      t.pc = s.pc + 2 ∧ onlyRegsAndPc [x, 0xF] s t

/-- 43_alu.md R98 and R100, with R89 for the flag (and R90): SUB and SUBN: the wrapped difference unless X is the
flag register, and the flag by the OPEN `SUB_FLAG_POLARITY`: it holds whichever of the three values it has. -/
def Obligations.SubWritesDifferenceAndFlag : Prop :=
  ∀ (x y : RegIx) (s : State),
    let subflag := fun (a b : Nat) => match Config.subFlagPolarity with
      | .borrow => if a < b then (1 : Byte) else 0
      | .notBorrow => if a ≥ b then (1 : Byte) else 0
      | .greater => if a > b then (1 : Byte) else 0
    (∃ t, exec (.sub x y) s = .next t ∧
      (x ≠ 0xF → (t.getV x).toNat = ((s.getV x).toNat + 256 - (s.getV y).toNat) % 256) ∧
      t.getV 0xF = subflag (s.getV x).toNat (s.getV y).toNat ∧ t.pc = s.pc + 2 ∧ onlyRegsAndPc [x, 0xF] s t) ∧
    (∃ t, exec (.subn x y) s = .next t ∧
      (x ≠ 0xF → (t.getV x).toNat = ((s.getV y).toNat + 256 - (s.getV x).toNat) % 256) ∧
      t.getV 0xF = subflag (s.getV y).toNat (s.getV x).toNat ∧ t.pc = s.pc + 2 ∧ onlyRegsAndPc [x, 0xF] s t)

/-- 43_alu.md R99 and R101 (and R90): SHR and SHL of the `SHIFT_SOURCE` register by one bit, the flag the bit
shifted out. `shiftSource` is VX, the default of 00_scope.md R6 that the model keeps (log 5, PRESUMED), so the basis is
'derived' and the statement is about that value alone. -/
def Obligations.ShiftWritesResultAndBitOut : Prop :=
  ∀ (x y : RegIx) (s : State),
    let src := match shiftSource with | .vx => (s.getV x).toNat | .vy => (s.getV y).toNat
    (∃ t, exec (.shr x y) s = .next t ∧ (x ≠ 0xF → (t.getV x).toNat = src / 2) ∧
      (t.getV 0xF).toNat = src % 2 ∧ t.pc = s.pc + 2 ∧ onlyRegsAndPc [x, 0xF] s t) ∧
    (∃ t, exec (.shl x y) s = .next t ∧ (x ≠ 0xF → (t.getV x).toNat = 2 * src % 256) ∧
      (t.getV 0xF).toNat = src / 128 ∧ t.pc = s.pc + 2 ∧ onlyRegsAndPc [x, 0xF] s t)

/-- 43_alu.md R102: RND: the instruction, on every state, with the byte of the field `rnd`, which is the model's choice
(log 2: the spec's byte is an input of the tick, so the basis is 'derived'); and, for every random byte, a tick that
executes it. -/
def Obligations.RndMasksRandomByte : Prop :=
  ∀ (x : RegIx) (nn : Byte) (s : State),
    (∃ t, exec (.rnd x nn) s = .next t ∧
      (∀ k : Fin 8, (t.getV x).getLsbD k.val = (s.rnd.getLsbD k.val && nn.getLsbD k.val)) ∧
      t.pc = s.pc + 2 ∧ onlyRegsAndPc [x] s t) ∧
    (s.fault = none → s.waiting = false → s.pc.toNat ≤ 0xFFE → decodeWord (s.wordAt s.pc.toNat) = .ok (.rnd x nn) →
      ∀ (keypad : Keypad) (rnd : Byte), ∃ t, tick keypad rnd s = .next t ∧
        (∀ k : Fin 8, (t.getV x).getLsbD k.val = (rnd.getLsbD k.val && nn.getLsbD k.val)) ∧
        t.pc = s.pc + 2 ∧ keepsRegsBut [x] s t ∧ keepsMemory s t)

/-! ### Index register and memory -/

/-- 44_index_memory.md R103: LD I, addr. -/
def Obligations.LdISetsIndex : Prop :=
  ∀ (nnn : Addr) (s : State),
    ∃ t, exec (.ldI nnn) s = .next t ∧ t.I.toNat = nnn.toNat ∧ t.pc = s.pc + 2 ∧ onlyIndexAndPc s t

/-- 44_index_memory.md R104: ADD I, Vx: the sum modulo 2^16, no flag, no fault. -/
def Obligations.AddIndexWrapsAt16Bits : Prop :=
  ∀ (x : RegIx) (s : State),
    ∃ t, exec (.addIV x) s = .next t ∧ t.I.toNat = (s.I.toNat + (s.getV x).toNat) % 65536 ∧
      t.pc = s.pc + 2 ∧ onlyIndexAndPc s t

/-- 44_index_memory.md R105: LD F, Vx: five times the low nibble; where memory still holds the font there, the five
bytes from it are the digit's glyph. -/
def Obligations.LdFPointsAtGlyph : Prop :=
  ∀ (x : RegIx) (s : State),
    ∃ t, exec (.ldFV x) s = .next t ∧ t.I.toNat = 5 * ((s.getV x).toNat % 16) ∧ t.pc = s.pc + 2 ∧
      onlyIndexAndPc s t ∧
      ((∀ a, a < 80 → s.readByte a = resetByte a) →
        ∀ r : Fin 5, t.readByte (t.I.toNat + r.val) = (font.getD ((s.getV x).toNat % 16) []).getD r.val 0)

/-- 44_index_memory.md R106: LD B, Vx: outside memory it faults and writes nothing; else the three digits, each 0 to
9, that make the value; every other byte as before. -/
def Obligations.LdBStoresDigits : Prop :=
  ∀ (x : RegIx) (s : State),
    (0xFFF < s.I.toNat + 2 →
      ∃ t, exec (.ldBV x) s = .next t ∧ onlyRaised (.memoryOutOfRange (max s.I.toNat 0x1000)) s t) ∧
    (s.I.toNat + 2 ≤ 0xFFF →
      ∃ t, exec (.ldBV x) s = .next t ∧
        (t.readByte s.I.toNat).toNat = (s.getV x).toNat / 100 ∧
        (t.readByte (s.I.toNat + 1)).toNat = (s.getV x).toNat / 10 % 10 ∧
        (t.readByte (s.I.toNat + 2)).toNat = (s.getV x).toNat % 10 ∧
        t.pc = s.pc + 2 ∧ onlyBytesAndPc s.I.toNat 3 s t)

/-- 44_index_memory.md R107: LD [I], Vx: outside memory it faults and writes nothing; else V[0] to V[X] at I to
I + X; I and every other byte as before. -/
def Obligations.RegisterDump : Prop :=
  ∀ (x : RegIx) (s : State),
    (0xFFF < s.I.toNat + x.val →
      ∃ t, exec (.ldMemV x) s = .next t ∧ onlyRaised (.memoryOutOfRange (max s.I.toNat 0x1000)) s t) ∧
    (s.I.toNat + x.val ≤ 0xFFF →
      ∃ t, exec (.ldMemV x) s = .next t ∧ (∀ r : RegIx, r ≤ x → t.readByte (s.I.toNat + r.val) = s.getV r) ∧
        t.pc = s.pc + 2 ∧ onlyBytesAndPc s.I.toNat (x.val + 1) s t)

/-- 44_index_memory.md R108: LD Vx, [I]: outside memory it faults and writes nothing; else V[0] to V[X] from I to
I + X, register i from I + i; I, memory and the other registers as before. -/
def Obligations.RegisterLoad : Prop :=
  ∀ (x : RegIx) (s : State),
    (0xFFF < s.I.toNat + x.val →
      ∃ t, exec (.ldVMem x) s = .next t ∧ onlyRaised (.memoryOutOfRange (max s.I.toNat 0x1000)) s t) ∧
    (s.I.toNat + x.val ≤ 0xFFF →
      ∃ t, exec (.ldVMem x) s = .next t ∧ (∀ r : RegIx, r ≤ x → t.getV r = s.readByte (s.I.toNat + r.val)) ∧
        (∀ r : RegIx, x < r → t.getV r = s.getV r) ∧ t.pc = s.pc + 2 ∧
        t = { s with V := t.V, pc := t.pc } ∧ keepsMemory s t)

/-- 44_index_memory.md R108, a corner case: FX55 then FX65 with the same I and X restores V[0] to V[X], whatever
happened to the registers between. -/
def Obligations.DumpThenLoadRestores : Prop :=
  ∀ (x : RegIx) (s t u : State), s.I.toNat + x.val ≤ 0xFFF → exec (.ldMemV x) s = .next t → u.mem = t.mem → u.I = s.I →
    ∃ v, exec (.ldVMem x) u = .next v ∧ ∀ r : RegIx, r ≤ x → v.getV r = s.getV r

/-- 20_memory.md R46: a byte written by FX55 or FX33 is fetched as instruction bytes by any later tick, with no fence: on
every running block that has the memory the store left, a tick with `pc` at two of the stored bytes decodes and executes
the word they make, the byte at `pc` its high byte. -/
def Obligations.StoredBytesAreFetched : Prop :=
  ∀ (x : RegIx) (s : State),
    let fetches := fun (t : State) (pc hi lo : Nat) =>
      ∀ (u : State) (keypad : Keypad) (rnd : Byte),
        u.mem = t.mem → u.pc.toNat = pc → u.fault = none → u.waiting = false →
        tick keypad rnd u = State.executeWord
          { u with key := keypad, changed := false, DT := decay u.DT, ST := decay u.ST } (BitVec.ofNat 16 (hi * 256 + lo)) rnd
    (s.I.toNat + x.val ≤ 0xFFF → ∃ t, exec (.ldMemV x) s = .next t ∧
      ∀ r q : RegIx, q.val = r.val + 1 → q ≤ x →
        fetches t (s.I.toNat + r.val) (s.getV r).toNat (s.getV q).toNat) ∧
    (s.I.toNat + 2 ≤ 0xFFF → ∃ t, exec (.ldBV x) s = .next t ∧
      fetches t s.I.toNat ((s.getV x).toNat / 100) ((s.getV x).toNat / 10 % 10) ∧
      fetches t (s.I.toNat + 1) ((s.getV x).toNat / 10 % 10) ((s.getV x).toNat % 10))

/-! ### Keypad and timers -/

/-- 45_keypad_timers.md R109 and R110: SKP and SKNP: a value above 0xF faults; else the key's latched level decides. -/
def Obligations.SkipOnKey : Prop :=
  ∀ (x : RegIx) (s : State),
    (0xF < (s.getV x).toNat →
      (∃ t, exec (.skp x) s = .next t ∧ onlyRaised (.keyOutOfRange (s.getV x)) s t) ∧
      (∃ t, exec (.sknp x) s = .next t ∧ onlyRaised (.keyOutOfRange (s.getV x)) s t)) ∧
    (∀ k : KeyIx, (s.getV x).toNat = k.val →
      (∃ t, exec (.skp x) s = .next t ∧ onlyPc s t ∧
        t.pc = if s.key[k.val] = true then s.pc + 4 else s.pc + 2) ∧
      (∃ t, exec (.sknp x) s = .next t ∧ onlyPc s t ∧
        t.pc = if s.key[k.val] = true then s.pc + 2 else s.pc + 4))

/-- 45_keypad_timers.md R111: LD Vx, DT. -/
def Obligations.LdVDtReadsTimer : Prop :=
  ∀ (x : RegIx) (s : State),
    ∃ t, exec (.ldVDt x) s = .next t ∧ t.getV x = s.DT ∧ t.pc = s.pc + 2 ∧ onlyRegsAndPc [x] s t

/-- 45_keypad_timers.md R112: LD Vx, K: the wait is entered, no register is written. -/
def Obligations.LdVKEntersWait : Prop :=
  ∀ (x : RegIx) (s : State),
    ∃ t, exec (.ldVK x) s = .next t ∧ t.waiting = true ∧ t.waitReg = x ∧ t.pc = s.pc + 2 ∧
      t = { s with waiting := true, waitReg := x, pc := t.pc } ∧ keepsMemory s t

/-- 45_keypad_timers.md R113 and R114: LD DT, Vx and LD ST, Vx; `sound_active` follows ST. -/
def Obligations.TimersAreWritten : Prop :=
  ∀ (x : RegIx) (s : State),
    (∃ t, exec (.ldDtV x) s = .next t ∧ t.DT = s.getV x ∧ t.pc = s.pc + 2 ∧
      t = { s with DT := t.DT, pc := t.pc } ∧ keepsMemory s t) ∧
    (∃ t, exec (.ldStV x) s = .next t ∧ t.ST = s.getV x ∧ (t.soundActive = true ↔ s.getV x ≠ 0) ∧
      t.pc = s.pc + 2 ∧ t = { s with ST := t.ST, pc := t.pc } ∧ keepsMemory s t)

/-! ### The tick -/

/-- A step runs the decoded instruction (40_cycle.md R76): on a running block whose bytes at `pc` decode to `i`, a
tick latches the keypad, clears `changed`, decays the timers and is `exec i` of that state with the tick's random
byte; and a step is the tick the script names next, or, with an empty script, one with free inputs (log 1). -/
def Obligations.StepRunsDecodedInstruction : Prop :=
  ∀ (i : Instr) (s : State), s.fault = none → s.waiting = false → s.pc.toNat ≤ 0xFFE →
    decodeWord (s.wordAt s.pc.toNat) = .ok i →
    (∀ keypad rnd, tick keypad rnd s =
      exec i { s with key := keypad, changed := false, DT := decay s.DT, ST := decay s.ST, rnd := rnd }) ∧
    (∀ keypad rnd rest, s.script = .tick keypad rnd :: rest → step s =
      exec i { s with key := keypad, changed := false, DT := decay s.DT, ST := decay s.ST, rnd := rnd, script := rest }) ∧
    (s.script = [] → step s =
      exec i { s with key := Config.freeKeypad s.freeTicks, changed := false, DT := decay s.DT, ST := decay s.ST,
                      rnd := Config.freeRnd s.freeTicks, freeTicks := s.freeTicks + 1 })

/-- Every step answers a next state: a fatal fault is a state of the block, not an end of the model
(40_cycle.md R65, 60_exceptions.md R117; log 4 is the model's choice). -/
def Obligations.EveryStepAnswersNext : Prop := ∀ s : State, ∃ t, step s = .next t

/-- 40_cycle.md R66: a tick on a halted block changes no state at all and returns what stands. -/
def Obligations.HaltedTickChangesNothing : Prop :=
  ∀ (keypad : Keypad) (rnd : Byte) (s : State), s.fault ≠ none →
    ∃ t, tick keypad rnd s = .next t ∧ t = s ∧ t.tickResult = ⟨s.fb, s.changed, s.fault⟩

/-- 60_exceptions.md R120: a halted block stays halted through any number of steps. After `n` of them memory is what the
loads among the script's first `n` transactions made of it, in their order, so as it was where there is none of them, and
below 0x200 in any case; the script and the counter of free inputs have moved on (log 1, the model's choice); everything
else is as it was. -/
def Obligations.HaltedForGood : Prop :=
  ∀ (n : Nat) (s : State), s.fault ≠ none →
    ∃ t, core.run n s = .next t ∧
      t = { s with mem := afterLoads s.mem (s.script.take n), script := s.script.drop n,
                   freeTicks := s.freeTicks + (n - s.script.length) } ∧
      ((∀ c ∈ s.script.take n, c.isTick = true) → t.mem = s.mem) ∧
      ∀ a, a < 0x200 → t.readByte a = s.readByte a

/-- 40_cycle.md R69: the waiting tick. With no key pressed nothing but the latch and `changed` changes; else the
pressed key of the lowest index is written to the waiting register and the wait ends. No timer decays, `pc` stays,
no fault. -/
def Obligations.WaitingTick : Prop :=
  ∀ (keypad : Keypad) (rnd : Byte) (s : State), s.fault = none → s.waiting = true →
    ((∀ j : KeyIx, keypad[j.val] = false) →
      ∃ t, tick keypad rnd s = .next t ∧ t = { s with key := keypad, changed := false } ∧ keepsMemory s t) ∧
    (∀ k : KeyIx, keypad[k.val] = true → (∀ j : KeyIx, j < k → keypad[j.val] = false) →
      ∃ t, tick keypad rnd s = .next t ∧ (t.getV s.waitReg).toNat = k.val ∧ keepsRegsBut [s.waitReg] s t ∧
        t = { s with V := t.V, key := keypad, changed := false, waiting := false } ∧ keepsMemory s t)

/-- 95_test_vectors.md S4 over a run (from R69): while the host's snapshots have no key pressed the block waits,
however long, and nothing but the latch, `changed` and the script changes; the first snapshot with a pressed key writes
the key of the lowest index to the waiting register, ends the wait and changes no other register and nothing else. The
script is the model's choice, log 1. -/
def Obligations.WaitEndsAtFirstPress : Prop :=
  ∀ (idle : List Byte) (keypad : Keypad) (rnd : Byte) (k : KeyIx) (rest : List HostCall) (s : State),
    s.fault = none → s.waiting = true →
    s.script = (idle.map fun r => HostCall.tick (Vector.replicate 16 false) r) ++ .tick keypad rnd :: rest →
    keypad[k.val] = true → (∀ j : KeyIx, j < k → keypad[j.val] = false) →
    (∃ t, core.run idle.length s = .next t ∧ t.waiting = true ∧
      t = { s with key := t.key, changed := t.changed, script := .tick keypad rnd :: rest }) ∧
    (∃ t, core.run (idle.length + 1) s = .next t ∧ (t.getV s.waitReg).toNat = k.val ∧ keepsRegsBut [s.waitReg] s t ∧
      t = { s with V := t.V, key := keypad, changed := false, waiting := false, script := rest })

/-- 40_cycle.md R70: on a non-waiting tick each timer goes down by one if it is above zero, whatever the tick then
does, a fault included, unless the instruction executed writes that timer; the instruction sees the decremented
value. -/
def Obligations.TimersDecayOnExecutingTick : Prop :=
  ∀ (keypad : Keypad) (rnd : Byte) (s : State), s.fault = none → s.waiting = false →
    ∃ t, tick keypad rnd s = .next t ∧
      ((∀ x, decodeWord (s.wordAt s.pc.toNat) ≠ .ok (.ldDtV x)) → t.DT.toNat = s.DT.toNat - 1) ∧
      ((∀ x, decodeWord (s.wordAt s.pc.toNat) ≠ .ok (.ldStV x)) → t.ST.toNat = s.ST.toNat - 1) ∧
      (∀ x, s.pc.toNat ≤ 0xFFE → decodeWord (s.wordAt s.pc.toNat) = .ok (.ldDtV x) → t.DT = s.getV x) ∧
      (∀ x, s.pc.toNat ≤ 0xFFE → decodeWord (s.wordAt s.pc.toNat) = .ok (.ldStV x) → t.ST = s.getV x) ∧
      (∀ x, s.pc.toNat ≤ 0xFFE → decodeWord (s.wordAt s.pc.toNat) = .ok (.ldVDt x) →
        (t.getV x).toNat = s.DT.toNat - 1)

/-- 40_cycle.md R71: the fetch: an executing tick decodes and executes the word of the two bytes at `pc`, high byte
first, with `pc` as it was; where one of them is outside memory it raises MemoryOutOfRange with the first address
outside. -/
def Obligations.FetchReadsWordOrFaults : Prop :=
  ∀ (keypad : Keypad) (rnd : Byte) (s : State), s.fault = none → s.waiting = false →
    (s.pc.toNat ≤ 0xFFE → tick keypad rnd s =
      State.executeWord { s with key := keypad, changed := false, DT := decay s.DT, ST := decay s.ST }
        (BitVec.ofNat 16 ((s.readByte s.pc.toNat).toNat * 256 + (s.readByte (s.pc.toNat + 1)).toNat)) rnd) ∧
    (0xFFF < s.pc.toNat → ∃ t, tick keypad rnd s = .next t ∧
      t = { s with key := keypad, changed := false, DT := decay s.DT, ST := decay s.ST,
                   fault := some ⟨.memoryOutOfRange s.pc.toNat, s.pc⟩ } ∧ keepsMemory s t) ∧
    (s.pc.toNat = 0xFFF → ∃ t, tick keypad rnd s = .next t ∧
      t = { s with key := keypad, changed := false, DT := decay s.DT, ST := decay s.ST,
                   fault := some ⟨.memoryOutOfRange (s.pc.toNat + 1), s.pc⟩ } ∧ keepsMemory s t)

/-- 40_cycle.md R72: decode and execute: a word that is no instruction (30_encoding.md R60) raises IllegalInstruction
with the word, its code 1, before any write of an instruction, the latch and the timer decay standing
(90_conflicts.md C2); any other word executes its instruction. -/
def Obligations.DecodeThenExecuteOrFault : Prop :=
  ∀ (keypad : Keypad) (rnd : Byte) (s : State), s.fault = none → s.waiting = false → s.pc.toNat ≤ 0xFFE →
    (∀ e, decodeWord (s.wordAt s.pc.toNat) = .error e →
      ∃ t c, tick keypad rnd s = .next t ∧ c.code = 1 ∧ c.info = some (s.wordAt s.pc.toNat).toNat ∧
        t = { s with key := keypad, changed := false, DT := decay s.DT, ST := decay s.ST, fault := some ⟨c, s.pc⟩ } ∧
        keepsMemory s t) ∧
    (∀ i, decodeWord (s.wordAt s.pc.toNat) = .ok i → tick keypad rnd s =
      exec i { s with key := keypad, changed := false, DT := decay s.DT, ST := decay s.ST, rnd := rnd })

/-- 60_exceptions.md R118 (with R117's record): a tick that raises a fault leaves V, I, pc, sp, stack, mem, fb,
waiting and wait_reg as they were and `changed` 0; the keypad is latched and the timers have decayed; the record
holds the pc. -/
def Obligations.FaultsArePrecise : Prop :=
  ∀ (keypad : Keypad) (rnd : Byte) (s : State), s.fault = none →
    ∃ t, tick keypad rnd s = .next t ∧ ∀ f, t.fault = some f →
      f.pc = s.pc ∧ t.V = s.V ∧ t.I = s.I ∧ t.pc = s.pc ∧ t.sp = s.sp ∧ t.stack = s.stack ∧ t.mem = s.mem ∧
      t.fb = s.fb ∧ t.waiting = s.waiting ∧ t.waitReg = s.waitReg ∧ t.changed = false ∧ t.key = keypad ∧
      t.DT.toNat = s.DT.toNat - 1 ∧ t.ST.toNat = s.ST.toNat - 1

/-- 60_exceptions.md R119 (an inference the spec marks as its own): an executing tick raises exactly the fault of the
first check that fails, in the order fetch range, decode, the instruction's own check, and none when all hold; a
waiting tick raises none (R116). -/
def Obligations.FaultPriority : Prop :=
  ∀ (keypad : Keypad) (rnd : Byte) (s : State), s.fault = none →
    ∃ t, tick keypad rnd s = .next t ∧
      t.fault = if s.waiting then none else (tickFault s).map fun c => ⟨c, s.pc⟩

/-- 10_state.md R25: the changed flag is true exactly when this tick executed a clear or a draw without fault, and
it is part of the tick's result. -/
def Obligations.ChangedExactlyAfterClearOrDraw : Prop :=
  ∀ (keypad : Keypad) (rnd : Byte) (s : State), s.fault = none →
    ∃ t, tick keypad rnd s = .next t ∧ t.tickResult.changed = t.changed ∧
      (t.changed = true ↔ t.fault = none ∧ s.waiting = false ∧ s.pc.toNat ≤ 0xFFE ∧
        (decodeWord (s.wordAt s.pc.toNat) = .ok .cls ∨
          ∃ x y n, decodeWord (s.wordAt s.pc.toNat) = .ok (.drw x y n)))

/-- 40_cycle.md R73: an instruction that raises a fault does not change `pc`; every other advances it by 2, or by 4
where it is a skip, or sets it where it is JP, CALL, RET or JP V0. -/
def Obligations.PcConvention : Prop :=
  ∀ (i : Instr) (s : State), s.fault = none →
    ∃ t, exec i s = .next t ∧ (t.fault ≠ none → t.pc = s.pc) ∧
      (t.fault = none → match i with
        | .ret => ∃ k : Fin 16, s.sp.val = k.val + 1 ∧ t.pc = s.stack[k.val]
        | .jp nnn => t.pc.toNat = nnn.toNat
        | .call nnn => t.pc.toNat = nnn.toNat
        | .jpV0 nnn => t.pc.toNat = nnn.toNat + (s.getV 0).toNat
        | .seImm _ _ | .sneImm _ _ | .seReg _ _ | .sneReg _ _ | .skp _ | .sknp _ => t.pc = s.pc + 2 ∨ t.pc = s.pc + 4
        | _ => t.pc = s.pc + 2)

/-! ### Which instruction writes which state -/

/-- 10_state.md R14 and R15 (the spec marks R14 as its own inference): a general register changes only as the
destination of an instruction that has one, V[0xF] besides as the flag of 8XY4 to 8XY7, 8XYE and DXYN, and V[0] to
V[X] by FX65. -/
def Obligations.RegistersWrittenOnlyBy : Prop :=
  ∀ (i : Instr) (s t : State) (r : RegIx), exec i s = .next t → t.getV r ≠ s.getV r →
    match i with
    | .ldImm x _ | .addImm x _ | .ldReg x _ | .or x _ | .and x _ | .xor x _ | .rnd x _ | .ldVDt x => r = x
    | .addReg x _ | .sub x _ | .shr x _ | .subn x _ | .shl x _ => r = x ∨ r = 0xF
    | .drw _ _ _ => r = 0xF
    | .ldVMem x => r ≤ x
    | _ => False

/-- 10_state.md R17: `I` is written only by ANNN, FX1E and FX29, with those values. -/
def Obligations.IndexWrittenOnlyBy : Prop :=
  ∀ (i : Instr) (s : State), ∃ t, exec i s = .next t ∧
    t.I.toNat = match i with
      | .ldI nnn => nnn.toNat
      | .addIV x => (s.I.toNat + (s.getV x).toNat) % 65536
      | .ldFV x => 5 * ((s.getV x).toNat % 16)
      | _ => s.I.toNat

/-- 10_state.md R19, R20, R21, R22, R23, R24 and 20_memory.md R44: the stack is written only by CALL (its pointer
besides by RET), DT by FX15, ST by FX18, the framebuffer and `changed` by CLS and DRW, the waiting state by FX0A,
memory by FX33 and FX55; no instruction writes the keypad latch. -/
def Obligations.OtherStateWrittenOnlyBy : Prop :=
  ∀ (i : Instr) (s t : State), exec i s = .next t →
    (t.stack ≠ s.stack → ∃ nnn, i = .call nnn) ∧
    (t.sp ≠ s.sp → i = .ret ∨ ∃ nnn, i = .call nnn) ∧
    (t.DT ≠ s.DT → ∃ x, i = .ldDtV x) ∧
    (t.ST ≠ s.ST → ∃ x, i = .ldStV x) ∧
    (t.fb ≠ s.fb ∨ t.changed ≠ s.changed → i = .cls ∨ ∃ x y n, i = .drw x y n) ∧
    (t.waiting ≠ s.waiting ∨ t.waitReg ≠ s.waitReg → ∃ x, i = .ldVK x) ∧
    (t.mem ≠ s.mem → (∃ x, i = .ldBV x) ∨ ∃ x, i = .ldMemV x) ∧
    t.key = s.key ∧ t.rnd = s.rnd ∧ t.script = s.script ∧ t.freeTicks = s.freeTicks

/-- 10_state.md R21: ST is read by no instruction: two blocks that differ in ST alone still differ in ST alone after a
tick with the same inputs, so nothing a program or the tick's result shows depends on it. -/
def Obligations.SoundTimerIsReadByNone : Prop :=
  ∀ (keypad : Keypad) (rnd b : Byte) (s : State),
    ∃ t u, tick keypad rnd s = .next t ∧ tick keypad rnd { s with ST := b } = .next u ∧
      u = { t with ST := u.ST } ∧ u.tickResult = t.tickResult

/-! ### Load -/

/-- 70_reset_and_hazards.md R132: `Load` writes the bytes from 0x200 up, as far as memory goes, and changes nothing
else. -/
def Obligations.LoadWritesProgram : Prop :=
  ∀ (data : List Byte) (s : State),
    (∀ k : Fin data.length, 0x200 + k.val ≤ 0xFFF → (s.load data).readByte (0x200 + k.val) = data[k.val]) ∧
    (∀ a, a < 0x200 ∨ 0x200 + data.length ≤ a ∨ 0xFFF < a → (s.load data).readByte a = s.readByte a) ∧
    s.load data = { s with mem := (s.load data).mem }

/-- One step is one transaction of the host (70_reset_and_hazards.md R135): the script's next, a tick or a load, on a
halted or waiting block too; with an empty script, a tick with free inputs. The script is the model's choice, log 1. -/
def Obligations.StepIsOneHostTransaction : Prop :=
  ∀ s : State,
    (∀ keypad rnd rest, s.script = .tick keypad rnd :: rest → step s = tick keypad rnd { s with script := rest }) ∧
    (∀ data rest, s.script = .load data :: rest →
      ∃ t, step s = .next t ∧ t = { s with script := rest, mem := t.mem } ∧ t.mem = (s.load data).mem) ∧
    (s.script = [] → step s = tick (Config.freeKeypad s.freeTicks) (Config.freeRnd s.freeTicks)
      { s with freeTicks := s.freeTicks + 1 })

/-! ### The invariant of every run -/

/-- The construction state satisfies the invariant. -/
def Obligations.ConstructionSatisfiesInv : Prop := State.reset.Inv

/-- Every step keeps the invariant: memory in canonical form, the bounds on `pc` and the return addresses
(40_cycle.md R74, an inference the spec marks as its own), and what a halted and a waiting block look like (R75,
60_exceptions.md R117, R118). -/
def Obligations.EveryStepKeepsInv : Prop := ∀ s t : State, s.Inv → step s = .next t → t.Inv
end

