-- ==== Sys2Proof/Laws/Decode.lean ====
section
/-! SUPPORT. The fields of a word as numbers, and the fields of each format's word (30_encoding.md R49, R50). -/

namespace Sys2Proof

/-! ### Fields as numbers -/

theorem fieldG_val (w : Word) : (fieldG w).val = w.toNat / 4096 := by
  have := w.isLt
  refine (BitVec.extractLsb'_toNat 12 4 w).trans ?_
  rw [Nat.shiftRight_eq_div_pow]; omega

theorem fieldX_val (w : Word) : (fieldX w).val = w.toNat / 256 % 16 := by
  refine (BitVec.extractLsb'_toNat 8 4 w).trans ?_
  rw [Nat.shiftRight_eq_div_pow]

theorem fieldY_val (w : Word) : (fieldY w).val = w.toNat / 16 % 16 := by
  refine (BitVec.extractLsb'_toNat 4 4 w).trans ?_
  rw [Nat.shiftRight_eq_div_pow]

theorem fieldN_val (w : Word) : (fieldN w).val = w.toNat % 16 := by
  refine (BitVec.extractLsb'_toNat 0 4 w).trans ?_
  rw [Nat.shiftRight_zero]

theorem fieldNN_toNat (w : Word) : (fieldNN w).toNat = w.toNat % 256 := by
  simp [fieldNN, BitVec.extractLsb'_toNat]

theorem fieldNNN_toNat (w : Word) : (fieldNNN w).toNat = w.toNat % 4096 := by
  simp [fieldNNN, BitVec.extractLsb'_toNat]

theorem fieldX_eq (w : Word) : fieldX w = Fin.ofNat 16 (w.toNat / 256) := Fin.ext (fieldX_val w)

theorem fieldY_eq (w : Word) : fieldY w = Fin.ofNat 16 (w.toNat / 16) := Fin.ext (fieldY_val w)

theorem fieldN_eq (w : Word) : fieldN w = Fin.ofNat 16 w.toNat := Fin.ext (fieldN_val w)

theorem fieldNN_eq (w : Word) : fieldNN w = BitVec.ofNat 8 w.toNat :=
  BitVec.eq_of_toNat_eq (by rw [fieldNN_toNat, BitVec.toNat_ofNat])

theorem fieldNNN_eq (w : Word) : fieldNNN w = BitVec.ofNat 12 w.toNat :=
  BitVec.eq_of_toNat_eq (by rw [fieldNNN_toNat, BitVec.toNat_ofNat])

/-! ### The formats' words as numbers -/

theorem append_toNat {m n : Nat} (a : BitVec m) (b : BitVec n) : (a ++ b).toNat = a.toNat * 2 ^ n + b.toNat := by
  rw [BitVec.toNat_append, Nat.shiftLeft_eq, ← Nat.shiftLeft_eq, Nat.shiftLeft_add_eq_or_of_lt b.isLt]

theorem wordNNN_toNat (g : BitVec 4) (nnn : Addr) : (wordNNN g nnn).toNat = g.toNat * 4096 + nnn.toNat :=
  append_toNat g nnn

theorem wordXNN_toNat (g : BitVec 4) (x : RegIx) (nn : Byte) :
    (wordXNN g x nn).toNat = g.toNat * 4096 + x.val * 256 + nn.toNat := by
  refine (append_toNat _ nn).trans ?_
  rw [append_toNat]
  simp only [BitVec.toNat_ofFin]
  omega

theorem wordXYN_toNat (g : BitVec 4) (x y : RegIx) (n : Fin 16) :
    (wordXYN g x y n).toNat = g.toNat * 4096 + x.val * 256 + y.val * 16 + n.val := by
  refine (append_toNat _ (BitVec.ofFin n : BitVec 4)).trans ?_
  rw [append_toNat, append_toNat]
  simp only [BitVec.toNat_ofFin]
  omega

/-! ### The fields of the formats' words -/

theorem fieldG_wordNNN (g : BitVec 4) (nnn : Addr) : (fieldG (wordNNN g nnn)).val = g.toNat := by
  have := nnn.isLt
  rw [fieldG_val, wordNNN_toNat]; omega

theorem fieldNNN_wordNNN (g : BitVec 4) (nnn : Addr) : fieldNNN (wordNNN g nnn) = nnn := by
  have := nnn.isLt
  apply BitVec.eq_of_toNat_eq
  rw [fieldNNN_toNat, wordNNN_toNat]; omega

theorem fieldG_wordXNN (g : BitVec 4) (x : RegIx) (nn : Byte) : (fieldG (wordXNN g x nn)).val = g.toNat := by
  have := nn.isLt
  rw [fieldG_val, wordXNN_toNat]; omega

theorem fieldX_wordXNN (g : BitVec 4) (x : RegIx) (nn : Byte) : fieldX (wordXNN g x nn) = x := by
  have := nn.isLt
  apply Fin.ext
  rw [fieldX_val, wordXNN_toNat]; omega

theorem fieldNN_wordXNN (g : BitVec 4) (x : RegIx) (nn : Byte) : fieldNN (wordXNN g x nn) = nn := by
  have := nn.isLt
  apply BitVec.eq_of_toNat_eq
  rw [fieldNN_toNat, wordXNN_toNat]; omega

theorem fieldG_wordXYN (g : BitVec 4) (x y : RegIx) (n : Fin 16) :
    (fieldG (wordXYN g x y n)).val = g.toNat := by
  rw [fieldG_val, wordXYN_toNat]; omega

theorem fieldX_wordXYN (g : BitVec 4) (x y : RegIx) (n : Fin 16) : fieldX (wordXYN g x y n) = x := by
  apply Fin.ext
  rw [fieldX_val, wordXYN_toNat]; omega

theorem fieldY_wordXYN (g : BitVec 4) (x y : RegIx) (n : Fin 16) : fieldY (wordXYN g x y n) = y := by
  apply Fin.ext
  rw [fieldY_val, wordXYN_toNat]; omega

theorem fieldN_wordXYN (g : BitVec 4) (x y : RegIx) (n : Fin 16) : fieldN (wordXYN g x y n) = n := by
  apply Fin.ext
  rw [fieldN_val, wordXYN_toNat]; omega

/-! ### A word from its fields -/

theorem wordNNN_fields (w : Word) : wordNNN (w.extractLsb' 12 4) (fieldNNN w) = w := by
  have := w.isLt
  apply BitVec.eq_of_toNat_eq
  rw [wordNNN_toNat, fieldNNN_toNat, BitVec.extractLsb'_toNat, Nat.shiftRight_eq_div_pow]; omega

theorem wordXNN_fields (w : Word) : wordXNN (w.extractLsb' 12 4) (fieldX w) (fieldNN w) = w := by
  have := w.isLt
  apply BitVec.eq_of_toNat_eq
  rw [wordXNN_toNat, fieldX_val, fieldNN_toNat, BitVec.extractLsb'_toNat, Nat.shiftRight_eq_div_pow]; omega

theorem wordXYN_fields (w : Word) : wordXYN (w.extractLsb' 12 4) (fieldX w) (fieldY w) (fieldN w) = w := by
  have := w.isLt
  apply BitVec.eq_of_toNat_eq
  rw [wordXYN_toNat, fieldX_val, fieldY_val, fieldN_val, BitVec.extractLsb'_toNat, Nat.shiftRight_eq_div_pow]; omega

/-- The bytes of a word make the word again (20_memory.md R38). -/
@[simp] theorem wordOfBytes_bytes (w : Word) : wordOfBytes (w.extractLsb' 8 8) (w.extractLsb' 0 8) = w := by
  have := w.isLt
  apply BitVec.eq_of_toNat_eq
  refine (append_toNat _ _).trans ?_
  simp only [BitVec.extractLsb'_toNat, Nat.shiftRight_eq_div_pow]
  omega

end Sys2Proof
end

