-- ==== Sys2Proof/Laws/Memory.lean ====
section
/-! SUPPORT. The laws of the memory array: a read after a write, the canonical form kept by every operation,
and the range check. -/

namespace Sys2Proof.Machine

/-! ### Cells -/

theorem Memory.read_eq_resetByte {m : Memory} {a : Nat} (h : ∀ c ∈ m, c.1 ≠ a) : Memory.read m a = resetByte a := by
  induction m with
  | nil => rfl
  | cons c m ih =>
    simp only [List.mem_cons, forall_eq_or_imp] at h
    simp [Memory.read, h.1, ih h.2]

theorem Memory.read_filter_same (m : Memory) (a : Nat) :
    Memory.read (m.filter fun c => c.1 != a) a = resetByte a :=
  Memory.read_eq_resetByte fun c hc => by simpa using (List.mem_filter.mp hc).2

theorem Memory.read_filter_other (m : Memory) {a a' : Nat} (h : a' ≠ a) :
    Memory.read (m.filter fun c => c.1 != a) a' = Memory.read m a' := by
  induction m with
  | nil => rfl
  | cons c m ih =>
    by_cases hc : c.1 = a
    · simp [Memory.read, hc, ih, Ne.symm h]
    · simp [Memory.read, hc, ih]

theorem Memory.read_place_same (m : Memory) (a : Nat) (b : Byte) (h : ∀ c ∈ m, c.1 ≠ a) :
    Memory.read (Memory.place m a b) a = b := by
  induction m with
  | nil => simp [Memory.place, Memory.read]
  | cons c m ih =>
    simp only [List.mem_cons, forall_eq_or_imp] at h
    simp only [Memory.place]
    split
    · simp [Memory.read]
    · simp [Memory.read, h.1, ih h.2]

theorem Memory.read_place_other (m : Memory) {a a' : Nat} (b : Byte) (h : a' ≠ a) :
    Memory.read (Memory.place m a b) a' = Memory.read m a' := by
  induction m with
  | nil => simp [Memory.place, Memory.read, Ne.symm h]
  | cons c m ih =>
    simp only [Memory.place]
    split
    · simp [Memory.read, Ne.symm h]
    · simp [Memory.read, ih]

/-! ### Read after write -/

theorem Memory.read_write_same (m : Memory) (a : Nat) (b : Byte) : Memory.read (Memory.write m a b) a = b := by
  simp only [Memory.write]
  split
  · rename_i h; rw [Memory.read_filter_same, h]
  · exact Memory.read_place_same _ a b fun c hc => by simpa using (List.mem_filter.mp hc).2

theorem Memory.read_write_other (m : Memory) {a a' : Nat} (b : Byte) (h : a' ≠ a) :
    Memory.read (Memory.write m a b) a' = Memory.read m a' := by
  simp only [Memory.write]
  split
  · exact Memory.read_filter_other m h
  · rw [Memory.read_place_other _ b h, Memory.read_filter_other m h]

theorem Memory.read_write (m : Memory) (a a' : Nat) (b : Byte) :
    Memory.read (Memory.write m a b) a' = if a' = a then b else Memory.read m a' := by
  split
  · next h => rw [h, Memory.read_write_same]
  · next h => exact Memory.read_write_other m b h

/-- What `writeBytes` leaves at every address. -/
theorem Memory.read_writeBytes (m : Memory) (a a' : Nat) (bs : List Byte) :
    Memory.read (Memory.writeBytes m a bs) a' =
      if h : a ≤ a' ∧ a' < a + bs.length then bs[a' - a]'(by omega) else Memory.read m a' := by
  induction bs generalizing m a with
  | nil => simp [Memory.writeBytes]
  | cons b bs ih =>
    rw [Memory.writeBytes, ih, Memory.read_write]
    by_cases h0 : a' = a
    · subst h0; simp
    · by_cases h1 : a ≤ a' ∧ a' < a + (bs.length + 1)
      · have h2 : a + 1 ≤ a' ∧ a' < a + 1 + bs.length := by omega
        have h3 : a' - a = (a' - (a + 1)) + 1 := by omega
        simp [h1, h2, h3]
      · have h2 : ¬ (a + 1 ≤ a' ∧ a' < a + 1 + bs.length) := by omega
        rw [dif_neg h2, if_neg h0, dif_neg (by simpa using h1)]

/-- What `load` leaves at every address. -/
theorem Memory.read_load (m : Memory) (a a' : Nat) (bs : List Byte) :
    Memory.read (Memory.load m a bs) a' =
      if h : a ≤ a' ∧ a' < a + bs.length ∧ a' ≤ 0xFFF then bs[a' - a]'(by omega) else Memory.read m a' := by
  induction bs generalizing m a with
  | nil => simp [Memory.load]; omega
  | cons b bs ih =>
    rw [Memory.load]
    split
    · next hEnd =>
      have h1 : ¬ (a ≤ a' ∧ a' < a + (b :: bs).length ∧ a' ≤ 0xFFF) := by omega
      rw [dif_neg h1]
    · rw [ih, Memory.read_write]
      by_cases h0 : a' = a
      · subst h0; simp; intro; omega
      · by_cases h1 : a ≤ a' ∧ a' < a + (bs.length + 1) ∧ a' ≤ 0xFFF
        · have h2 : a + 1 ≤ a' ∧ a' < a + 1 + bs.length ∧ a' ≤ 0xFFF := by omega
          have h3 : a' - a = (a' - (a + 1)) + 1 := by omega
          simp [h1, h2, h3]
        · have h2 : ¬ (a + 1 ≤ a' ∧ a' < a + 1 + bs.length ∧ a' ≤ 0xFFF) := by omega
          rw [dif_neg h2, if_neg h0, dif_neg (by simpa using h1)]

/-! ### The canonical form -/

theorem Memory.wf_nil : Memory.wf [] := by simp [Memory.wf]

theorem Memory.mem_place {m : Memory} {a : Nat} {b : Byte} {c : Host.Cell} (h : c ∈ Memory.place m a b) :
    c = (a, b) ∨ c ∈ m := by
  induction m with
  | nil => simpa [Memory.place] using h
  | cons d m ih =>
    simp only [Memory.place] at h
    split at h
    · simpa using h
    · rcases List.mem_cons.mp h with rfl | h
      · simp
      · rcases ih h with h | h <;> simp [h]

theorem Memory.place_pairwise {m : Memory} {a : Nat} {b : Byte} (hs : m.Pairwise fun c d => c.1 < d.1)
    (hn : ∀ c ∈ m, c.1 ≠ a) : (Memory.place m a b).Pairwise fun c d => c.1 < d.1 := by
  induction m with
  | nil => simp [Memory.place]
  | cons d m ih =>
    obtain ⟨hd, hm⟩ := List.pairwise_cons.mp hs
    simp only [List.mem_cons, forall_eq_or_imp] at hn
    simp only [Memory.place]
    split
    · next hlt =>
      refine List.pairwise_cons.mpr ⟨fun c hc => ?_, hs⟩
      rcases List.mem_cons.mp hc with rfl | hc
      · exact hlt
      · exact Nat.lt_trans hlt (hd c hc)
    · next hge =>
      refine List.pairwise_cons.mpr ⟨fun c hc => ?_, ih hm hn.2⟩
      rcases Memory.mem_place hc with rfl | hc
      · exact Nat.lt_of_le_of_ne (Nat.le_of_not_lt hge) hn.1
      · exact hd c hc

theorem Memory.wf_write {m : Memory} {a : Nat} {b : Byte} (hm : Memory.wf m) (ha : a < Config.memSize) :
    Memory.wf (Memory.write m a b) := by
  have hf : Memory.wf (m.filter fun c => c.1 != a) :=
    ⟨hm.1.filter _, fun c hc => hm.2 c (List.mem_filter.mp hc).1⟩
  simp only [Memory.write]
  split
  · exact hf
  · next hb =>
    refine ⟨Memory.place_pairwise hf.1 fun c hc => by simpa using (List.mem_filter.mp hc).2, fun c hc => ?_⟩
    rcases Memory.mem_place hc with rfl | hc
    · exact ⟨ha, hb⟩
    · exact hf.2 c hc

theorem Memory.wf_writeBytes {m : Memory} {a : Nat} {bs : List Byte} (hm : Memory.wf m)
    (ha : a + bs.length ≤ Config.memSize) : Memory.wf (Memory.writeBytes m a bs) := by
  induction bs generalizing m a with
  | nil => exact hm
  | cons b bs ih =>
    simp only [List.length_cons] at ha
    exact ih (Memory.wf_write hm (by omega)) (by omega)

theorem Memory.wf_load {m : Memory} {a : Nat} {bs : List Byte} (hm : Memory.wf m) : Memory.wf (Memory.load m a bs) := by
  induction bs generalizing m a with
  | nil => exact hm
  | cons b bs ih =>
    rw [Memory.load]
    split
    · exact hm
    · next h => exact ih (Memory.wf_write hm (by simp only [Config.memSize]; omega))

/-! ### The range check (20_memory.md R41) -/

theorem firstOutside_eq_none {base n : Nat} : firstOutside base n = none ↔ n = 0 ∨ base + n ≤ 0x1000 := by
  simp only [firstOutside]
  split <;> simp <;> omega

theorem firstOutside_eq_some {base n a : Nat} :
    firstOutside base n = some a ↔ (0 < n ∧ 0x1000 < base + n) ∧ a = max base 0x1000 := by
  simp only [firstOutside]
  split
  · next h => simp only [Option.some.injEq]; constructor
              · rintro rfl; exact ⟨by omega, rfl⟩
              · rintro ⟨-, rfl⟩; rfl
  · next h => simp only [reduceCtorEq, false_iff, not_and]; intro h1; omega

end Sys2Proof.Machine
end

