-- ==== Sys2Proof/Laws/State.lean ====
section
/-! SUPPORT. What each field of State is after each update: one lemma per field per update. -/

namespace Sys2Proof.Machine

variable (s : State)

/-! ### setV -/

@[simp] theorem State.setV_mem (r : RegIx) (b : Byte) : (s.setV r b).mem = s.mem := rfl
@[simp] theorem State.setV_V (r : RegIx) (b : Byte) : (s.setV r b).V = s.V.set r.val b := rfl
@[simp] theorem State.setV_I (r : RegIx) (b : Byte) : (s.setV r b).I = s.I := rfl
@[simp] theorem State.setV_pc (r : RegIx) (b : Byte) : (s.setV r b).pc = s.pc := rfl
@[simp] theorem State.setV_stack (r : RegIx) (b : Byte) : (s.setV r b).stack = s.stack := rfl
@[simp] theorem State.setV_sp (r : RegIx) (b : Byte) : (s.setV r b).sp = s.sp := rfl
@[simp] theorem State.setV_DT (r : RegIx) (b : Byte) : (s.setV r b).DT = s.DT := rfl
@[simp] theorem State.setV_ST (r : RegIx) (b : Byte) : (s.setV r b).ST = s.ST := rfl
@[simp] theorem State.setV_fb (r : RegIx) (b : Byte) : (s.setV r b).fb = s.fb := rfl
@[simp] theorem State.setV_changed (r : RegIx) (b : Byte) : (s.setV r b).changed = s.changed := rfl
@[simp] theorem State.setV_key (r : RegIx) (b : Byte) : (s.setV r b).key = s.key := rfl
@[simp] theorem State.setV_waiting (r : RegIx) (b : Byte) : (s.setV r b).waiting = s.waiting := rfl
@[simp] theorem State.setV_waitReg (r : RegIx) (b : Byte) : (s.setV r b).waitReg = s.waitReg := rfl
@[simp] theorem State.setV_fault (r : RegIx) (b : Byte) : (s.setV r b).fault = s.fault := rfl
@[simp] theorem State.setV_rnd (r : RegIx) (b : Byte) : (s.setV r b).rnd = s.rnd := rfl
@[simp] theorem State.setV_script (r : RegIx) (b : Byte) : (s.setV r b).script = s.script := rfl
@[simp] theorem State.setV_freeTicks (r : RegIx) (b : Byte) : (s.setV r b).freeTicks = s.freeTicks := rfl

/-! ### setI -/

@[simp] theorem State.setI_mem (a : Word) : (s.setI a).mem = s.mem := rfl
@[simp] theorem State.setI_V (a : Word) : (s.setI a).V = s.V := rfl
@[simp] theorem State.setI_I (a : Word) : (s.setI a).I = a := rfl
@[simp] theorem State.setI_pc (a : Word) : (s.setI a).pc = s.pc := rfl
@[simp] theorem State.setI_stack (a : Word) : (s.setI a).stack = s.stack := rfl
@[simp] theorem State.setI_sp (a : Word) : (s.setI a).sp = s.sp := rfl
@[simp] theorem State.setI_DT (a : Word) : (s.setI a).DT = s.DT := rfl
@[simp] theorem State.setI_ST (a : Word) : (s.setI a).ST = s.ST := rfl
@[simp] theorem State.setI_fb (a : Word) : (s.setI a).fb = s.fb := rfl
@[simp] theorem State.setI_changed (a : Word) : (s.setI a).changed = s.changed := rfl
@[simp] theorem State.setI_key (a : Word) : (s.setI a).key = s.key := rfl
@[simp] theorem State.setI_waiting (a : Word) : (s.setI a).waiting = s.waiting := rfl
@[simp] theorem State.setI_waitReg (a : Word) : (s.setI a).waitReg = s.waitReg := rfl
@[simp] theorem State.setI_fault (a : Word) : (s.setI a).fault = s.fault := rfl
@[simp] theorem State.setI_rnd (a : Word) : (s.setI a).rnd = s.rnd := rfl
@[simp] theorem State.setI_script (a : Word) : (s.setI a).script = s.script := rfl
@[simp] theorem State.setI_freeTicks (a : Word) : (s.setI a).freeTicks = s.freeTicks := rfl

/-! ### setPc -/

@[simp] theorem State.setPc_mem (a : Word) : (s.setPc a).mem = s.mem := rfl
@[simp] theorem State.setPc_V (a : Word) : (s.setPc a).V = s.V := rfl
@[simp] theorem State.setPc_I (a : Word) : (s.setPc a).I = s.I := rfl
@[simp] theorem State.setPc_pc (a : Word) : (s.setPc a).pc = a := rfl
@[simp] theorem State.setPc_stack (a : Word) : (s.setPc a).stack = s.stack := rfl
@[simp] theorem State.setPc_sp (a : Word) : (s.setPc a).sp = s.sp := rfl
@[simp] theorem State.setPc_DT (a : Word) : (s.setPc a).DT = s.DT := rfl
@[simp] theorem State.setPc_ST (a : Word) : (s.setPc a).ST = s.ST := rfl
@[simp] theorem State.setPc_fb (a : Word) : (s.setPc a).fb = s.fb := rfl
@[simp] theorem State.setPc_changed (a : Word) : (s.setPc a).changed = s.changed := rfl
@[simp] theorem State.setPc_key (a : Word) : (s.setPc a).key = s.key := rfl
@[simp] theorem State.setPc_waiting (a : Word) : (s.setPc a).waiting = s.waiting := rfl
@[simp] theorem State.setPc_waitReg (a : Word) : (s.setPc a).waitReg = s.waitReg := rfl
@[simp] theorem State.setPc_fault (a : Word) : (s.setPc a).fault = s.fault := rfl
@[simp] theorem State.setPc_rnd (a : Word) : (s.setPc a).rnd = s.rnd := rfl
@[simp] theorem State.setPc_script (a : Word) : (s.setPc a).script = s.script := rfl
@[simp] theorem State.setPc_freeTicks (a : Word) : (s.setPc a).freeTicks = s.freeTicks := rfl

/-! ### advance -/

@[simp] theorem State.advance_mem (k : Word) : (s.advance k).mem = s.mem := rfl
@[simp] theorem State.advance_V (k : Word) : (s.advance k).V = s.V := rfl
@[simp] theorem State.advance_I (k : Word) : (s.advance k).I = s.I := rfl
@[simp] theorem State.advance_pc (k : Word) : (s.advance k).pc = s.pc + k := rfl
@[simp] theorem State.advance_stack (k : Word) : (s.advance k).stack = s.stack := rfl
@[simp] theorem State.advance_sp (k : Word) : (s.advance k).sp = s.sp := rfl
@[simp] theorem State.advance_DT (k : Word) : (s.advance k).DT = s.DT := rfl
@[simp] theorem State.advance_ST (k : Word) : (s.advance k).ST = s.ST := rfl
@[simp] theorem State.advance_fb (k : Word) : (s.advance k).fb = s.fb := rfl
@[simp] theorem State.advance_changed (k : Word) : (s.advance k).changed = s.changed := rfl
@[simp] theorem State.advance_key (k : Word) : (s.advance k).key = s.key := rfl
@[simp] theorem State.advance_waiting (k : Word) : (s.advance k).waiting = s.waiting := rfl
@[simp] theorem State.advance_waitReg (k : Word) : (s.advance k).waitReg = s.waitReg := rfl
@[simp] theorem State.advance_fault (k : Word) : (s.advance k).fault = s.fault := rfl
@[simp] theorem State.advance_rnd (k : Word) : (s.advance k).rnd = s.rnd := rfl
@[simp] theorem State.advance_script (k : Word) : (s.advance k).script = s.script := rfl
@[simp] theorem State.advance_freeTicks (k : Word) : (s.advance k).freeTicks = s.freeTicks := rfl

/-! ### storeBytes -/

@[simp] theorem State.storeBytes_mem (a : Nat) (bs : List Byte) : (s.storeBytes a bs).mem = Memory.writeBytes s.mem a bs := rfl
@[simp] theorem State.storeBytes_V (a : Nat) (bs : List Byte) : (s.storeBytes a bs).V = s.V := rfl
@[simp] theorem State.storeBytes_I (a : Nat) (bs : List Byte) : (s.storeBytes a bs).I = s.I := rfl
@[simp] theorem State.storeBytes_pc (a : Nat) (bs : List Byte) : (s.storeBytes a bs).pc = s.pc := rfl
@[simp] theorem State.storeBytes_stack (a : Nat) (bs : List Byte) : (s.storeBytes a bs).stack = s.stack := rfl
@[simp] theorem State.storeBytes_sp (a : Nat) (bs : List Byte) : (s.storeBytes a bs).sp = s.sp := rfl
@[simp] theorem State.storeBytes_DT (a : Nat) (bs : List Byte) : (s.storeBytes a bs).DT = s.DT := rfl
@[simp] theorem State.storeBytes_ST (a : Nat) (bs : List Byte) : (s.storeBytes a bs).ST = s.ST := rfl
@[simp] theorem State.storeBytes_fb (a : Nat) (bs : List Byte) : (s.storeBytes a bs).fb = s.fb := rfl
@[simp] theorem State.storeBytes_changed (a : Nat) (bs : List Byte) : (s.storeBytes a bs).changed = s.changed := rfl
@[simp] theorem State.storeBytes_key (a : Nat) (bs : List Byte) : (s.storeBytes a bs).key = s.key := rfl
@[simp] theorem State.storeBytes_waiting (a : Nat) (bs : List Byte) : (s.storeBytes a bs).waiting = s.waiting := rfl
@[simp] theorem State.storeBytes_waitReg (a : Nat) (bs : List Byte) : (s.storeBytes a bs).waitReg = s.waitReg := rfl
@[simp] theorem State.storeBytes_fault (a : Nat) (bs : List Byte) : (s.storeBytes a bs).fault = s.fault := rfl
@[simp] theorem State.storeBytes_rnd (a : Nat) (bs : List Byte) : (s.storeBytes a bs).rnd = s.rnd := rfl
@[simp] theorem State.storeBytes_script (a : Nat) (bs : List Byte) : (s.storeBytes a bs).script = s.script := rfl
@[simp] theorem State.storeBytes_freeTicks (a : Nat) (bs : List Byte) : (s.storeBytes a bs).freeTicks = s.freeTicks := rfl

/-! ### raise -/

@[simp] theorem State.raise_mem (c : FaultCause) : (s.raise c).mem = s.mem := rfl
@[simp] theorem State.raise_V (c : FaultCause) : (s.raise c).V = s.V := rfl
@[simp] theorem State.raise_I (c : FaultCause) : (s.raise c).I = s.I := rfl
@[simp] theorem State.raise_pc (c : FaultCause) : (s.raise c).pc = s.pc := rfl
@[simp] theorem State.raise_stack (c : FaultCause) : (s.raise c).stack = s.stack := rfl
@[simp] theorem State.raise_sp (c : FaultCause) : (s.raise c).sp = s.sp := rfl
@[simp] theorem State.raise_DT (c : FaultCause) : (s.raise c).DT = s.DT := rfl
@[simp] theorem State.raise_ST (c : FaultCause) : (s.raise c).ST = s.ST := rfl
@[simp] theorem State.raise_fb (c : FaultCause) : (s.raise c).fb = s.fb := rfl
@[simp] theorem State.raise_changed (c : FaultCause) : (s.raise c).changed = s.changed := rfl
@[simp] theorem State.raise_key (c : FaultCause) : (s.raise c).key = s.key := rfl
@[simp] theorem State.raise_waiting (c : FaultCause) : (s.raise c).waiting = s.waiting := rfl
@[simp] theorem State.raise_waitReg (c : FaultCause) : (s.raise c).waitReg = s.waitReg := rfl
@[simp] theorem State.raise_fault (c : FaultCause) : (s.raise c).fault = some ⟨c, s.pc⟩ := rfl
@[simp] theorem State.raise_rnd (c : FaultCause) : (s.raise c).rnd = s.rnd := rfl
@[simp] theorem State.raise_script (c : FaultCause) : (s.raise c).script = s.script := rfl
@[simp] theorem State.raise_freeTicks (c : FaultCause) : (s.raise c).freeTicks = s.freeTicks := rfl

/-! ### latch -/

@[simp] theorem State.latch_mem (k : Keypad) : (s.latch k).mem = s.mem := rfl
@[simp] theorem State.latch_V (k : Keypad) : (s.latch k).V = s.V := rfl
@[simp] theorem State.latch_I (k : Keypad) : (s.latch k).I = s.I := rfl
@[simp] theorem State.latch_pc (k : Keypad) : (s.latch k).pc = s.pc := rfl
@[simp] theorem State.latch_stack (k : Keypad) : (s.latch k).stack = s.stack := rfl
@[simp] theorem State.latch_sp (k : Keypad) : (s.latch k).sp = s.sp := rfl
@[simp] theorem State.latch_DT (k : Keypad) : (s.latch k).DT = s.DT := rfl
@[simp] theorem State.latch_ST (k : Keypad) : (s.latch k).ST = s.ST := rfl
@[simp] theorem State.latch_fb (k : Keypad) : (s.latch k).fb = s.fb := rfl
@[simp] theorem State.latch_changed (k : Keypad) : (s.latch k).changed = false := rfl
@[simp] theorem State.latch_key (k : Keypad) : (s.latch k).key = k := rfl
@[simp] theorem State.latch_waiting (k : Keypad) : (s.latch k).waiting = s.waiting := rfl
@[simp] theorem State.latch_waitReg (k : Keypad) : (s.latch k).waitReg = s.waitReg := rfl
@[simp] theorem State.latch_fault (k : Keypad) : (s.latch k).fault = s.fault := rfl
@[simp] theorem State.latch_rnd (k : Keypad) : (s.latch k).rnd = s.rnd := rfl
@[simp] theorem State.latch_script (k : Keypad) : (s.latch k).script = s.script := rfl
@[simp] theorem State.latch_freeTicks (k : Keypad) : (s.latch k).freeTicks = s.freeTicks := rfl

/-! ### decayTimers -/

@[simp] theorem State.decayTimers_mem : s.decayTimers.mem = s.mem := rfl
@[simp] theorem State.decayTimers_V : s.decayTimers.V = s.V := rfl
@[simp] theorem State.decayTimers_I : s.decayTimers.I = s.I := rfl
@[simp] theorem State.decayTimers_pc : s.decayTimers.pc = s.pc := rfl
@[simp] theorem State.decayTimers_stack : s.decayTimers.stack = s.stack := rfl
@[simp] theorem State.decayTimers_sp : s.decayTimers.sp = s.sp := rfl
@[simp] theorem State.decayTimers_DT : s.decayTimers.DT = decay s.DT := rfl
@[simp] theorem State.decayTimers_ST : s.decayTimers.ST = decay s.ST := rfl
@[simp] theorem State.decayTimers_fb : s.decayTimers.fb = s.fb := rfl
@[simp] theorem State.decayTimers_changed : s.decayTimers.changed = s.changed := rfl
@[simp] theorem State.decayTimers_key : s.decayTimers.key = s.key := rfl
@[simp] theorem State.decayTimers_waiting : s.decayTimers.waiting = s.waiting := rfl
@[simp] theorem State.decayTimers_waitReg : s.decayTimers.waitReg = s.waitReg := rfl
@[simp] theorem State.decayTimers_fault : s.decayTimers.fault = s.fault := rfl
@[simp] theorem State.decayTimers_rnd : s.decayTimers.rnd = s.rnd := rfl
@[simp] theorem State.decayTimers_script : s.decayTimers.script = s.script := rfl
@[simp] theorem State.decayTimers_freeTicks : s.decayTimers.freeTicks = s.freeTicks := rfl

/-! ### load -/

@[simp] theorem State.load_mem (data : List Byte) : (s.load data).mem = Memory.load s.mem Config.programBase data := rfl
@[simp] theorem State.load_V (data : List Byte) : (s.load data).V = s.V := rfl
@[simp] theorem State.load_I (data : List Byte) : (s.load data).I = s.I := rfl
@[simp] theorem State.load_pc (data : List Byte) : (s.load data).pc = s.pc := rfl
@[simp] theorem State.load_stack (data : List Byte) : (s.load data).stack = s.stack := rfl
@[simp] theorem State.load_sp (data : List Byte) : (s.load data).sp = s.sp := rfl
@[simp] theorem State.load_DT (data : List Byte) : (s.load data).DT = s.DT := rfl
@[simp] theorem State.load_ST (data : List Byte) : (s.load data).ST = s.ST := rfl
@[simp] theorem State.load_fb (data : List Byte) : (s.load data).fb = s.fb := rfl
@[simp] theorem State.load_changed (data : List Byte) : (s.load data).changed = s.changed := rfl
@[simp] theorem State.load_key (data : List Byte) : (s.load data).key = s.key := rfl
@[simp] theorem State.load_waiting (data : List Byte) : (s.load data).waiting = s.waiting := rfl
@[simp] theorem State.load_waitReg (data : List Byte) : (s.load data).waitReg = s.waitReg := rfl
@[simp] theorem State.load_fault (data : List Byte) : (s.load data).fault = s.fault := rfl
@[simp] theorem State.load_rnd (data : List Byte) : (s.load data).rnd = s.rnd := rfl
@[simp] theorem State.load_script (data : List Byte) : (s.load data).script = s.script := rfl
@[simp] theorem State.load_freeTicks (data : List Byte) : (s.load data).freeTicks = s.freeTicks := rfl

/-! ### writeBack -/

@[simp] theorem State.writeBack_mem (x : RegIx) (r f : Byte) : (s.writeBack x r f).mem = s.mem := rfl
@[simp] theorem State.writeBack_V (x : RegIx) (r f : Byte) : (s.writeBack x r f).V = ((s.setV x r).setV Config.flagReg f).V := rfl
@[simp] theorem State.writeBack_I (x : RegIx) (r f : Byte) : (s.writeBack x r f).I = s.I := rfl
@[simp] theorem State.writeBack_pc (x : RegIx) (r f : Byte) : (s.writeBack x r f).pc = s.pc + 2 := rfl
@[simp] theorem State.writeBack_stack (x : RegIx) (r f : Byte) : (s.writeBack x r f).stack = s.stack := rfl
@[simp] theorem State.writeBack_sp (x : RegIx) (r f : Byte) : (s.writeBack x r f).sp = s.sp := rfl
@[simp] theorem State.writeBack_DT (x : RegIx) (r f : Byte) : (s.writeBack x r f).DT = s.DT := rfl
@[simp] theorem State.writeBack_ST (x : RegIx) (r f : Byte) : (s.writeBack x r f).ST = s.ST := rfl
@[simp] theorem State.writeBack_fb (x : RegIx) (r f : Byte) : (s.writeBack x r f).fb = s.fb := rfl
@[simp] theorem State.writeBack_changed (x : RegIx) (r f : Byte) : (s.writeBack x r f).changed = s.changed := rfl
@[simp] theorem State.writeBack_key (x : RegIx) (r f : Byte) : (s.writeBack x r f).key = s.key := rfl
@[simp] theorem State.writeBack_waiting (x : RegIx) (r f : Byte) : (s.writeBack x r f).waiting = s.waiting := rfl
@[simp] theorem State.writeBack_waitReg (x : RegIx) (r f : Byte) : (s.writeBack x r f).waitReg = s.waitReg := rfl
@[simp] theorem State.writeBack_fault (x : RegIx) (r f : Byte) : (s.writeBack x r f).fault = s.fault := rfl
@[simp] theorem State.writeBack_rnd (x : RegIx) (r f : Byte) : (s.writeBack x r f).rnd = s.rnd := rfl
@[simp] theorem State.writeBack_script (x : RegIx) (r f : Byte) : (s.writeBack x r f).script = s.script := rfl
@[simp] theorem State.writeBack_freeTicks (x : RegIx) (r f : Byte) : (s.writeBack x r f).freeTicks = s.freeTicks := rfl

/-! ### Updates that are another one -/

@[simp] theorem State.setFlag_eq (b : Byte) : s.setFlag b = s.setV Config.flagReg b := rfl
@[simp] theorem State.skipIf_eq (c : Bool) : s.skipIf c = s.advance (if c then 4 else 2) := rfl
theorem State.writeBack_eq (x : RegIx) (r f : Byte) :
    s.writeBack x r f = ((s.setV x r).setV Config.flagReg f).advance 2 := rfl

end Sys2Proof.Machine
end

