-- ==== Sys2Proof/Laws/Ops.lean ====
section
/-! SUPPORT. One lemma per shared operation: what reading registers, memory, the stack and pixels gives after each
update, and everything an operation can answer. -/

namespace Sys2Proof.Machine

variable (s : State)

/-! ### Registers -/

theorem State.getV_setV (x r : RegIx) (b : Byte) : (s.setV x b).getV r = if r = x then b else s.getV r := by
  simp only [State.getV, State.setV, Vector.getElem_set, Fin.ext_iff, eq_comm]

@[simp] theorem State.getV_setV_same (x : RegIx) (b : Byte) : (s.setV x b).getV x = b := by
  simp [State.getV_setV]

theorem State.getV_setV_other {x r : RegIx} (b : Byte) (h : r ≠ x) : (s.setV x b).getV r = s.getV r := by
  simp [State.getV_setV, h]

@[simp] theorem State.getV_advance (k : Word) (r : RegIx) : (s.advance k).getV r = s.getV r := rfl
@[simp] theorem State.getV_setI (a : Word) (r : RegIx) : (s.setI a).getV r = s.getV r := rfl
@[simp] theorem State.getV_setPc (a : Word) (r : RegIx) : (s.setPc a).getV r = s.getV r := rfl
@[simp] theorem State.getV_storeBytes (a : Nat) (bs : List Byte) (r : RegIx) :
    (s.storeBytes a bs).getV r = s.getV r := rfl
@[simp] theorem State.getV_latch (k : Keypad) (r : RegIx) : (s.latch k).getV r = s.getV r := rfl
@[simp] theorem State.getV_decayTimers (r : RegIx) : s.decayTimers.getV r = s.getV r := rfl
@[simp] theorem State.getV_raise (c : FaultCause) (r : RegIx) : (s.raise c).getV r = s.getV r := rfl
@[simp] theorem State.getV_load (d : List Byte) (r : RegIx) : (s.load d).getV r = s.getV r := rfl

@[simp] theorem regOf_val (r : RegIx) : regOf r.val = r := by
  simp [regOf, Fin.ofNat, Nat.mod_eq_of_lt r.isLt]

/-! ### Memory -/

@[simp] theorem State.readByte_setV (x : RegIx) (b : Byte) (a : Nat) : (s.setV x b).readByte a = s.readByte a := rfl
@[simp] theorem State.readByte_advance (k : Word) (a : Nat) : (s.advance k).readByte a = s.readByte a := rfl
@[simp] theorem State.readByte_setI (w : Word) (a : Nat) : (s.setI w).readByte a = s.readByte a := rfl
@[simp] theorem State.readByte_setPc (w : Word) (a : Nat) : (s.setPc w).readByte a = s.readByte a := rfl
@[simp] theorem State.readByte_latch (k : Keypad) (a : Nat) : (s.latch k).readByte a = s.readByte a := rfl
@[simp] theorem State.readByte_decayTimers (a : Nat) : s.decayTimers.readByte a = s.readByte a := rfl
@[simp] theorem State.readByte_raise (c : FaultCause) (a : Nat) : (s.raise c).readByte a = s.readByte a := rfl

/-- What a store leaves at every address. -/
theorem State.readByte_storeBytes (base a : Nat) (bs : List Byte) :
    (s.storeBytes base bs).readByte a =
      if h : base ≤ a ∧ a < base + bs.length then bs[a - base]'(by omega) else s.readByte a :=
  Memory.read_writeBytes s.mem base a bs

theorem State.readByte_storeBytes_outside {base a : Nat} {bs : List Byte} (h : a < base ∨ base + bs.length ≤ a) :
    (s.storeBytes base bs).readByte a = s.readByte a := by
  rw [State.readByte_storeBytes, dif_neg (by omega)]

/-- What `Load` leaves at every address. -/
theorem State.readByte_load (data : List Byte) (a : Nat) :
    (s.load data).readByte a =
      if h : 0x200 ≤ a ∧ a < 0x200 + data.length ∧ a ≤ 0xFFF then data[a - 0x200]'(by omega) else s.readByte a :=
  Memory.read_load s.mem 0x200 a data

@[simp] theorem Memory.length_readBytes (m : Memory) (a n : Nat) : (Memory.readBytes m a n).length = n := by
  simp [Memory.readBytes]

theorem Memory.getElem_readBytes (m : Memory) (a n k : Nat) (h : k < (Memory.readBytes m a n).length) :
    (Memory.readBytes m a n)[k] = Memory.read m (a + k) := by
  simp [Memory.readBytes]

@[simp] theorem State.length_firstRegs (n : Nat) : (s.firstRegs n).length = n := by simp [State.firstRegs]

theorem State.getElem_firstRegs (n k : Nat) (h : k < (s.firstRegs n).length) :
    (s.firstRegs n)[k] = s.getV (regOf k) := by
  simp [State.firstRegs]

/-! ### Loading registers -/

@[simp] theorem State.readByte_loadRegs (base n a : Nat) : (s.loadRegs base n).readByte a = s.readByte a := by
  induction n with
  | zero => rfl
  | succ n ih => simpa [State.loadRegs] using ih

/-- What `loadRegs` leaves in every register: the first `n` come from memory. -/
theorem State.getV_loadRegs (base n : Nat) (hn : n ≤ 16) (r : RegIx) :
    (s.loadRegs base n).getV r = if r.val < n then s.readByte (base + r.val) else s.getV r := by
  induction n with
  | zero => simp [State.loadRegs]
  | succ n ih =>
    have hr : (regOf n).val = n := Nat.mod_eq_of_lt (by omega)
    simp only [State.loadRegs, State.getV_setV, ih (by omega), Fin.ext_iff, hr]
    by_cases h : r.val = n
    · simp [h]
    · have h' : r.val < n + 1 ↔ r.val < n := by omega
      simp [h, h']

/-- `loadRegs` changes the registers and nothing else. -/
theorem State.loadRegs_eq (base n : Nat) : s.loadRegs base n = { s with V := (s.loadRegs base n).V } := by
  induction n with
  | zero => rfl
  | succ n ih => rw [State.loadRegs, ih]; rfl

@[simp] theorem State.loadRegs_mem (base n : Nat) : (s.loadRegs base n).mem = s.mem := by
  rw [State.loadRegs_eq]
@[simp] theorem State.loadRegs_I (base n : Nat) : (s.loadRegs base n).I = s.I := by
  rw [State.loadRegs_eq]
@[simp] theorem State.loadRegs_pc (base n : Nat) : (s.loadRegs base n).pc = s.pc := by
  rw [State.loadRegs_eq]
@[simp] theorem State.loadRegs_stack (base n : Nat) : (s.loadRegs base n).stack = s.stack := by
  rw [State.loadRegs_eq]
@[simp] theorem State.loadRegs_sp (base n : Nat) : (s.loadRegs base n).sp = s.sp := by
  rw [State.loadRegs_eq]
@[simp] theorem State.loadRegs_DT (base n : Nat) : (s.loadRegs base n).DT = s.DT := by
  rw [State.loadRegs_eq]
@[simp] theorem State.loadRegs_ST (base n : Nat) : (s.loadRegs base n).ST = s.ST := by
  rw [State.loadRegs_eq]
@[simp] theorem State.loadRegs_fb (base n : Nat) : (s.loadRegs base n).fb = s.fb := by
  rw [State.loadRegs_eq]
@[simp] theorem State.loadRegs_changed (base n : Nat) : (s.loadRegs base n).changed = s.changed := by
  rw [State.loadRegs_eq]
@[simp] theorem State.loadRegs_key (base n : Nat) : (s.loadRegs base n).key = s.key := by
  rw [State.loadRegs_eq]
@[simp] theorem State.loadRegs_waiting (base n : Nat) : (s.loadRegs base n).waiting = s.waiting := by
  rw [State.loadRegs_eq]
@[simp] theorem State.loadRegs_waitReg (base n : Nat) : (s.loadRegs base n).waitReg = s.waitReg := by
  rw [State.loadRegs_eq]
@[simp] theorem State.loadRegs_fault (base n : Nat) : (s.loadRegs base n).fault = s.fault := by
  rw [State.loadRegs_eq]
@[simp] theorem State.loadRegs_rnd (base n : Nat) : (s.loadRegs base n).rnd = s.rnd := by
  rw [State.loadRegs_eq]
@[simp] theorem State.loadRegs_script (base n : Nat) : (s.loadRegs base n).script = s.script := by
  rw [State.loadRegs_eq]
@[simp] theorem State.loadRegs_freeTicks (base n : Nat) : (s.loadRegs base n).freeTicks = s.freeTicks := by
  rw [State.loadRegs_eq]

/-! ### Call stack -/

/-- Everything `push` can answer. -/
theorem State.push_cases (ret : Word) :
    (s.push ret = none ∧ s.sp.val = 16) ∨
    ∃ (h : s.sp.val < 16), s.push ret = some { s with stack := s.stack.set s.sp.val ret, sp := ⟨s.sp.val + 1, by omega⟩ } := by
  by_cases h : s.sp.val < Config.stackDepth
  · exact .inr ⟨h, by simp [State.push, h]⟩
  · refine .inl ⟨by simp [State.push, h], ?_⟩
    have := s.sp.isLt
    simp only [Config.stackDepth] at h
    omega

/-- Everything `pop` can answer. -/
theorem State.pop_cases :
    (s.pop = none ∧ s.sp.val = 0) ∨
    ∃ (_ : 0 < s.sp.val) (h : s.sp.val - 1 < 16),
      s.pop = some (s.stack[s.sp.val - 1], { s with sp := ⟨s.sp.val - 1, by omega⟩ }) := by
  by_cases h : 0 < s.sp.val
  · have := s.sp.isLt
    exact .inr ⟨h, by omega, by simp [State.pop, h]⟩
  · exact .inl ⟨by simp [State.pop, h], by omega⟩

/-! ### Faults -/

/-- Everything `inRange` can answer: the fault, or `k`. -/
theorem inRange_cases (base n : Nat) (k : Result) :
    (0 < n ∧ 0x1000 < base + n ∧ inRange base n s k = .next (s.raise (.memoryOutOfRange (max base 0x1000)))) ∨
    ((n = 0 ∨ base + n ≤ 0x1000) ∧ inRange base n s k = k) := by
  simp only [inRange]
  split
  · next a h =>
    obtain ⟨⟨h1, h2⟩, rfl⟩ := firstOutside_eq_some.mp h
    exact .inl ⟨h1, h2, rfl⟩
  · next h => exact .inr ⟨firstOutside_eq_none.mp h, rfl⟩

theorem inRange_inside {base n : Nat} (k : Result) (h : n = 0 ∨ base + n ≤ 0x1000) : inRange base n s k = k := by
  simp [inRange, firstOutside_eq_none.mpr h]

theorem inRange_outside {base n : Nat} (k : Result) (h : 0 < n ∧ 0x1000 < base + n) :
    inRange base n s k = .next (s.raise (.memoryOutOfRange (max base 0x1000))) := by
  simp [inRange, firstOutside_eq_some.mpr ⟨h, rfl⟩, takeFault]

@[simp] theorem takeFault_eq (c : FaultCause) : takeFault c s = .next (s.raise c) := rfl

/-! ### Pixels -/

/-- A pixel after one was set. -/
theorem getPixel_setPixel (fb : Framebuffer) (r r' : Fin Config.height) (c c' : Fin Config.width) (b : Bool) :
    getPixel (setPixel fb r c b) r' c' = if r' = r ∧ c' = c then b else getPixel fb r' c' := by
  simp only [getPixel, setPixel, Vector.getElem_set, Fin.ext_iff]
  by_cases hr : r.val = r'.val
  · by_cases hc : c.val = c'.val
    · simp [hr, hc]
    · simp [hr, Ne.symm hc, hc]
  · simp [hr, Ne.symm hr]

@[simp] theorem getPixel_clear (r : Fin Config.height) (c : Fin Config.width) :
    getPixel clearFramebuffer r c = false := by
  simp [getPixel, clearFramebuffer]

/-- Two framebuffers with the same pixels are equal. -/
theorem framebuffer_ext {f g : Framebuffer} (h : ∀ r c, getPixel f r c = getPixel g r c) : f = g := by
  apply Vector.ext
  intro r hr
  apply Vector.ext
  intro c hc
  exact h ⟨r, hr⟩ ⟨c, hc⟩

/-! ### Keys -/

/-- The scan finds key `k` when it is pressed and none below it is (40_cycle.md R69). -/
theorem firstPressed_eq_some {keys : Keypad} {k : KeyIx} :
    firstPressed keys = some k ↔ keys[k.val] = true ∧ ∀ j : KeyIx, j < k → keys[j.val] = false := by
  constructor
  · intro h
    obtain ⟨hk, as, bs, he, hb⟩ := List.find?_eq_some_iff_append.mp h
    refine ⟨hk, fun j hj => ?_⟩
    have hp : (List.finRange 16).Pairwise (· < ·) := List.pairwise_lt_finRange 16
    have hj' : j ∈ as ++ k :: bs := he ▸ List.mem_finRange j
    rw [he, List.pairwise_append] at hp
    rcases List.mem_append.mp hj' with h1 | h1
    · simpa using hb j h1
    · rcases List.mem_cons.mp h1 with rfl | h2
      · exact absurd hj (lt_irrefl _)
      · exact absurd (List.pairwise_cons.mp hp.2.1 |>.1 j h2) (not_lt_of_gt hj)
  · rintro ⟨hk, hlt⟩
    rcases hf : firstPressed keys with _ | k'
    · have := List.find?_eq_none.mp hf k (List.mem_finRange k)
      simp [hk] at this
    · have hk' := List.find?_some hf
      congr 1
      obtain ⟨-, as, bs, he, hb⟩ := List.find?_eq_some_iff_append.mp hf
      rcases lt_trichotomy k' k with h | h | h
      · simp [hlt k' h] at hk'
      · exact h
      · have hp : (List.finRange 16).Pairwise (· < ·) := List.pairwise_lt_finRange 16
        have hkm : k ∈ as ++ k' :: bs := he ▸ List.mem_finRange k
        rw [he, List.pairwise_append] at hp
        rcases List.mem_append.mp hkm with h1 | h1
        · simpa [hk] using hb k h1
        · rcases List.mem_cons.mp h1 with rfl | h2
          · rfl
          · exact absurd (List.pairwise_cons.mp hp.2.1 |>.1 k h2) (not_lt_of_gt h)

theorem firstPressed_eq_none {keys : Keypad} : firstPressed keys = none ↔ ∀ j : KeyIx, keys[j.val] = false := by
  simp [firstPressed, List.find?_eq_none]

end Sys2Proof.Machine
end

