-- ==== Sys2Proof/Laws/Display.lean ====
section
/-! SUPPORT. What drawing a sprite does to every pixel and to the collision, said once (41_display.md R79). -/

namespace Sys2Proof.Machine

/-- How many columns right of the sprite's first column a pixel lies, modulo the screen. -/
def colOffset (x0 : Byte) (c : Fin Config.width) : Nat := (c.val + Config.width - x0.toNat % Config.width) % Config.width

/-- How many rows below the sprite's first row a pixel lies, modulo the screen. -/
def rowOffset (y0 : Byte) (r : Fin Config.height) : Nat :=
  (r.val + Config.height - y0.toNat % Config.height) % Config.height

/-- Whether one of the first `k` columns of a sprite row is a set bit on column `c`. -/
def rowHits (x0 bits : Byte) (k : Nat) (c : Fin Config.width) : Bool :=
  decide (colOffset x0 c < k) && spriteBit bits (colOffset x0 c)

theorem pixelCol_eq_iff (x0 : Byte) (c : Fin Config.width) {k : Nat} (hk : k < Config.width) :
    c = pixelCol x0 k ↔ colOffset x0 c = k := by
  have := c.isLt
  simp only [Config.width] at *
  simp only [Fin.ext_iff, pixelCol, colOffset, Fin.ofNat, Config.width]
  omega

theorem pixelRow_eq_iff (y0 : Byte) (r : Fin Config.height) {k : Nat} (hk : k < Config.height) :
    r = pixelRow y0 k ↔ rowOffset y0 r = k := by
  have := r.isLt
  simp only [Config.height] at *
  simp only [Fin.ext_iff, pixelRow, rowOffset, Fin.ofNat, Config.height]
  omega

variable (x0 y0 bits : Byte) (d : Drawing)

theorem drawPixel_pixel (r c : Nat) (row : Fin Config.height) (col : Fin Config.width) :
    getPixel (drawPixel x0 y0 bits r c d).fb row col =
      Bool.xor (getPixel d.fb row col)
        (decide (row = pixelRow y0 r ∧ col = pixelCol x0 c) && spriteBit bits c) := by
  simp only [drawPixel]
  split
  · next h =>
    simp only [getPixel_setPixel, h, Bool.and_true]
    split
    · next h' => simp [h'.1, h'.2]
    · next h' => simp [h']
  · next h => simp [h]

theorem drawPixel_collision (r c : Nat) :
    (drawPixel x0 y0 bits r c d).collision =
      (d.collision || (getPixel d.fb (pixelRow y0 r) (pixelCol x0 c) && spriteBit bits c)) := by
  simp only [drawPixel]
  split <;> simp_all

/-- The first `k` columns of a sprite row. -/
theorem drawCols (r k : Nat) (hk : k ≤ 8) :
    (∀ row col, getPixel ((List.range k).foldl (fun acc c => drawPixel x0 y0 bits r c acc) d).fb row col =
      Bool.xor (getPixel d.fb row col) (decide (row = pixelRow y0 r) && rowHits x0 bits k col)) ∧
    (((List.range k).foldl (fun acc c => drawPixel x0 y0 bits r c acc) d).collision = true ↔
      d.collision = true ∨ ∃ col, getPixel d.fb (pixelRow y0 r) col = true ∧ rowHits x0 bits k col = true) := by
  induction k with
  | zero => simp [rowHits]
  | succ k ih =>
    obtain ⟨ihp, ihc⟩ := ih (by omega)
    have hw : k < Config.width := by simp only [Config.width]; omega
    rw [List.range_succ, List.foldl_append]
    simp only [List.foldl_cons, List.foldl_nil]
    constructor
    · intro row col
      rw [drawPixel_pixel, ihp]
      simp only [pixelCol_eq_iff x0 col hw, rowHits]
      by_cases hr : row = pixelRow y0 r
      · rcases Nat.lt_trichotomy (colOffset x0 col) k with h | h | h
        · simp [hr, h, Nat.ne_of_lt h, Nat.lt_succ_of_lt h]
        · simp [hr, h]
        · simp [hr, Nat.ne_of_gt h, Nat.not_lt_of_gt h, show ¬ colOffset x0 col < k + 1 by omega]
      · simp [hr]
    · rw [drawPixel_collision, Bool.or_eq_true, ihc, ihp]
      have hself : colOffset x0 (pixelCol x0 k) = k := (pixelCol_eq_iff x0 _ hw).mp rfl
      simp only [rowHits, hself, lt_irrefl, decide_false, Bool.false_and, Bool.and_false, Bool.xor_false,
        Bool.and_eq_true, decide_eq_true_eq]
      constructor
      · rintro ((h | ⟨c, h1, h2, h3⟩) | ⟨h1, h2⟩)
        · exact .inl h
        · exact .inr ⟨c, h1, by omega, h3⟩
        · exact .inr ⟨_, h1, by omega, by rw [hself]; exact h2⟩
      · rintro (h | ⟨c, h1, h2, h3⟩)
        · exact .inl (.inl h)
        · rcases Nat.lt_succ_iff_lt_or_eq.mp h2 with h | h
          · exact .inl (.inr ⟨c, h1, h, h3⟩)
          · have hc := (pixelCol_eq_iff x0 c hw).mpr h
            exact .inr ⟨hc ▸ h1, h ▸ h3⟩

/-- Every pixel after a sprite row is drawn. -/
theorem drawRow_pixel (r : Nat) (row : Fin Config.height) (col : Fin Config.width) :
    getPixel (drawRow x0 y0 bits r d).fb row col =
      Bool.xor (getPixel d.fb row col) (decide (row = pixelRow y0 r) && rowHits x0 bits 8 col) :=
  (drawCols x0 y0 bits d r 8 le_rfl).1 row col

/-- When drawing a sprite row collides. -/
theorem drawRow_collision (r : Nat) :
    (drawRow x0 y0 bits r d).collision = true ↔
      d.collision = true ∨ ∃ col, getPixel d.fb (pixelRow y0 r) col = true ∧ rowHits x0 bits 8 col = true :=
  (drawCols x0 y0 bits d r 8 le_rfl).2

/-- Whether the sprite whose rows from row `r` on are `rows` has a set bit on a pixel. -/
def rowsHit (rows : List Byte) (r : Nat) (row : Fin Config.height) (col : Fin Config.width) : Bool :=
  decide (r ≤ rowOffset y0 row ∧ rowOffset y0 row < r + rows.length) &&
    rowHits x0 (rows.getD (rowOffset y0 row - r) 0) 8 col

theorem rowsHit_cons (b : Byte) (rows : List Byte) (r : Nat) (row : Fin Config.height) (col : Fin Config.width) :
    rowsHit x0 y0 (b :: rows) r row col =
      if rowOffset y0 row = r then rowHits x0 b 8 col else rowsHit x0 y0 rows (r + 1) row col := by
  simp only [rowsHit, List.length_cons]
  split
  · next h => simp [h]
  · next h =>
    by_cases h1 : r + 1 ≤ rowOffset y0 row
    · rw [show rowOffset y0 row - r = (rowOffset y0 row - (r + 1)) + 1 by omega, List.getD_cons_succ]
      congr 1
      simp only [decide_eq_decide]
      omega
    · simp only [show ¬ (r ≤ rowOffset y0 row) by omega, h1, false_and, decide_false, Bool.false_and]

/-- Every pixel after a sprite is drawn, and when it collides. -/
theorem drawRows_spec (rows : List Byte) (r : Nat) (hr : r + rows.length ≤ Config.height) :
    (∀ row col, getPixel (drawRows x0 y0 rows r d).fb row col =
      Bool.xor (getPixel d.fb row col) (rowsHit x0 y0 rows r row col)) ∧
    ((drawRows x0 y0 rows r d).collision = true ↔
      d.collision = true ∨ ∃ row col, getPixel d.fb row col = true ∧ rowsHit x0 y0 rows r row col = true) := by
  induction rows generalizing r d with
  | nil =>
    have h : ∀ row col, rowsHit x0 y0 [] r row col = false := by
      intro row col
      simp only [rowsHit, List.length_nil, Nat.add_zero]
      rw [decide_eq_false (by omega), Bool.false_and]
    simp [drawRows, h]
  | cons b rows ih =>
    simp only [List.length_cons] at hr
    have hr' : r < Config.height := by omega
    obtain ⟨ihp, ihc⟩ := ih (drawRow x0 y0 b r d) (r + 1) (by omega)
    simp only [drawRows, ihp, ihc, drawRow_pixel, drawRow_collision, rowsHit_cons, pixelRow_eq_iff y0 _ hr']
    have hlow : ∀ row col, rowOffset y0 row = r → rowsHit x0 y0 rows (r + 1) row col = false := by
      intro row col h
      simp [rowsHit, h]
    constructor
    · intro row col
      by_cases h : rowOffset y0 row = r
      · simp [h, hlow row col h]
      · simp [h]
    · have hself : rowOffset y0 (pixelRow y0 r) = r := (pixelRow_eq_iff y0 _ hr').mp rfl
      constructor
      · rintro ((h | ⟨col, h1, h2⟩) | ⟨row, col, h1, h2⟩)
        · exact .inl h
        · exact .inr ⟨_, col, h1, by rw [if_pos hself]; exact h2⟩
        · have hne : rowOffset y0 row ≠ r := fun h => by rw [hlow row col h] at h2; cases h2
          exact .inr ⟨row, col, by simpa [hne] using h1, by rw [if_neg hne]; exact h2⟩
      · rintro (h | ⟨row, col, h1, h2⟩)
        · exact .inl (.inl h)
        · by_cases h : rowOffset y0 row = r
          · rw [if_pos h] at h2
            exact .inl (.inr ⟨col, (pixelRow_eq_iff y0 row hr').mpr h ▸ h1, h2⟩)
          · rw [if_neg h] at h2
            exact .inr ⟨row, col, by simpa [h] using h1, h2⟩

/-- Drawing the `n` bytes of memory at `base`, from row 0: the pixels, as a read of memory. -/
theorem rowsHit_readBytes (m : Memory) (base n : Nat) (row : Fin Config.height) (col : Fin Config.width) :
    rowsHit x0 y0 (Memory.readBytes m base n) 0 row col =
      (decide (rowOffset y0 row < n) && decide (colOffset x0 col < 8) &&
        (Memory.read m (base + rowOffset y0 row)).getLsbD (7 - colOffset x0 col)) := by
  simp only [rowsHit, Memory.length_readBytes, Nat.zero_le, true_and, Nat.zero_add, Nat.sub_zero]
  by_cases h : rowOffset y0 row < n
  · simp [h, rowHits, spriteBit, Memory.readBytes]
  · simp [h]

end Sys2Proof.Machine
end

