-- ==== Sys2Proof/Laws/Exec.lean ====
section
/-! SUPPORT. Everything the branching meanings can answer, said once: the fault and when, or the next state. -/

namespace Sys2Proof.Machine

variable (s : State)

/-- RET (42_control_flow.md R80). -/
theorem exec_ret_cases :
    (s.sp.val = 0 ∧ exec .ret s = .next (s.raise .stackUnderflow)) ∨
    ∃ (_ : 0 < s.sp.val) (h : s.sp.val - 1 < 16),
      exec .ret s = .next ({ s with sp := ⟨s.sp.val - 1, by omega⟩ }.setPc s.stack[s.sp.val - 1]) := by
  rcases s.pop_cases with ⟨e, h⟩ | ⟨h, h', e⟩
  · exact .inl ⟨h, by simp only [exec, execRet, e, takeFault]⟩
  · exact .inr ⟨h, h', by simp only [exec, execRet, e]⟩

/-- CALL (R82). -/
theorem exec_call_cases (nnn : Addr) :
    (s.sp.val = 16 ∧ exec (.call nnn) s = .next (s.raise .stackOverflow)) ∨
    ∃ (h : s.sp.val < 16), exec (.call nnn) s =
      .next ({ s with stack := s.stack.set s.sp.val (s.pc + 2), sp := ⟨s.sp.val + 1, by omega⟩ }.setPc (addrWord nnn)) := by
  rcases s.push_cases (s.pc + 2) with ⟨e, h⟩ | ⟨h, e⟩
  · exact .inl ⟨h, by simp only [exec, execCall, e, takeFault]⟩
  · exact .inr ⟨h, by simp only [exec, execCall, e]⟩

/-- The key a value names (45_keypad_timers.md R109). -/
theorem keyOf_cases (v : Byte) :
    (0xF < v.toNat ∧ keyOf v = none) ∨ ∃ k : KeyIx, v.toNat = k.val ∧ keyOf v = some k := by
  by_cases h : v.toNat < 16
  · exact .inr ⟨⟨v.toNat, h⟩, rfl, by simp [keyOf, h]⟩
  · exact .inl ⟨by omega, by simp [keyOf, h]⟩

/-- SKP (R109). -/
theorem exec_skp_cases (x : RegIx) :
    (0xF < (s.getV x).toNat ∧ exec (.skp x) s = .next (s.raise (.keyOutOfRange (s.getV x)))) ∨
    ∃ k : KeyIx, (s.getV x).toNat = k.val ∧ exec (.skp x) s = .next (s.advance (if s.keyPressed k then 4 else 2)) := by
  rcases keyOf_cases (s.getV x) with ⟨h, e⟩ | ⟨k, h, e⟩
  · exact .inl ⟨h, by simp only [exec, execSkp, e, takeFault]⟩
  · exact .inr ⟨k, h, by simp only [exec, execSkp, e, State.skipIf]⟩

/-- SKNP (R110). -/
theorem exec_sknp_cases (x : RegIx) :
    (0xF < (s.getV x).toNat ∧ exec (.sknp x) s = .next (s.raise (.keyOutOfRange (s.getV x)))) ∨
    ∃ k : KeyIx, (s.getV x).toNat = k.val ∧
      exec (.sknp x) s = .next (s.advance (if !s.keyPressed k then 4 else 2)) := by
  rcases keyOf_cases (s.getV x) with ⟨h, e⟩ | ⟨k, h, e⟩
  · exact .inl ⟨h, by simp only [exec, execSknp, e, takeFault]⟩
  · exact .inr ⟨k, h, by simp only [exec, execSknp, e, State.skipIf]⟩

/-- DRW (41_display.md R79). -/
theorem exec_drw_cases (x y : RegIx) (n : Rows) :
    (0 < n.val ∧ 0x1000 < s.I.toNat + n.val ∧
      exec (.drw x y n) s = .next (s.raise (.memoryOutOfRange (max s.I.toNat 0x1000)))) ∨
    ((n.val = 0 ∨ s.I.toNat + n.val ≤ 0x1000) ∧ ∃ d,
      d = drawRows (s.getV x) (s.getV y) (Memory.readBytes s.mem s.I.toNat n.val) 0 ⟨s.fb, false⟩ ∧
      exec (.drw x y n) s =
        .next ({ s.setV Config.flagReg (flagOf d.collision) with fb := d.fb, changed := true }.advance 2)) := by
  rcases inRange_cases s s.I.toNat n.val _ with ⟨h1, h2, e⟩ | ⟨h, e⟩
  · exact .inl ⟨h1, h2, e⟩
  · exact .inr ⟨h, _, rfl, e⟩

/-- LD B, Vx (44_index_memory.md R106). -/
theorem exec_ldBV_cases (x : RegIx) :
    (0x1000 < s.I.toNat + 3 ∧ exec (.ldBV x) s = .next (s.raise (.memoryOutOfRange (max s.I.toNat 0x1000)))) ∨
    (s.I.toNat + 3 ≤ 0x1000 ∧
      exec (.ldBV x) s = .next ((s.storeBytes s.I.toNat (decimalDigits (s.getV x))).advance 2)) := by
  rcases inRange_cases s s.I.toNat 3 _ with ⟨_, h, e⟩ | ⟨h, e⟩
  · exact .inl ⟨h, e⟩
  · exact .inr ⟨by omega, e⟩

/-- LD [I], Vx (R107). -/
theorem exec_ldMemV_cases (x : RegIx) :
    (0x1000 < s.I.toNat + (x.val + 1) ∧
      exec (.ldMemV x) s = .next (s.raise (.memoryOutOfRange (max s.I.toNat 0x1000)))) ∨
    (s.I.toNat + (x.val + 1) ≤ 0x1000 ∧
      exec (.ldMemV x) s = .next ((s.storeBytes s.I.toNat (s.firstRegs (x.val + 1))).advance 2)) := by
  rcases inRange_cases s s.I.toNat (x.val + 1) _ with ⟨_, h, e⟩ | ⟨h, e⟩
  · exact .inl ⟨h, e⟩
  · exact .inr ⟨by omega, e⟩

/-- LD Vx, [I] (R108). -/
theorem exec_ldVMem_cases (x : RegIx) :
    (0x1000 < s.I.toNat + (x.val + 1) ∧
      exec (.ldVMem x) s = .next (s.raise (.memoryOutOfRange (max s.I.toNat 0x1000)))) ∨
    (s.I.toNat + (x.val + 1) ≤ 0x1000 ∧
      exec (.ldVMem x) s = .next ((s.loadRegs s.I.toNat (x.val + 1)).advance 2)) := by
  rcases inRange_cases s s.I.toNat (x.val + 1) _ with ⟨_, h, e⟩ | ⟨h, e⟩
  · exact .inl ⟨h, e⟩
  · exact .inr ⟨by omega, e⟩

/-- Every instruction raises its own fault when its check fails, and else completes with no fault recorded. -/
theorem exec_fault_cases (i : Instr) (hf : s.fault = none) :
    (∃ c, ownFault i s = some c ∧ exec i s = .next (s.raise c)) ∨
    (ownFault i s = none ∧ ∃ t, exec i s = .next t ∧ t.fault = none) := by
  cases i with
  | ret =>
    rcases exec_ret_cases s with ⟨h, e⟩ | ⟨h, _, e⟩
    · exact .inl ⟨_, by simp [ownFault, h], e⟩
    · exact .inr ⟨by simp [ownFault]; omega, _, e, hf⟩
  | call nnn =>
    rcases exec_call_cases s nnn with ⟨h, e⟩ | ⟨h, e⟩
    · exact .inl ⟨_, by simp [ownFault, h], e⟩
    · exact .inr ⟨by simp [ownFault]; omega, _, e, hf⟩
  | skp x =>
    rcases exec_skp_cases s x with ⟨h, e⟩ | ⟨_, h, e⟩
    · exact .inl ⟨_, by simp [ownFault, h], e⟩
    · exact .inr ⟨by simp [ownFault]; omega, _, e, hf⟩
  | sknp x =>
    rcases exec_sknp_cases s x with ⟨h, e⟩ | ⟨_, h, e⟩
    · exact .inl ⟨_, by simp [ownFault, h], e⟩
    · exact .inr ⟨by simp [ownFault]; omega, _, e, hf⟩
  | drw x y n =>
    rcases exec_drw_cases s x y n with ⟨_, h, e⟩ | ⟨h, _, _, e⟩
    · exact .inl ⟨_, by simp [ownFault, rangeFault]; omega, e⟩
    · exact .inr ⟨by simp [ownFault, rangeFault]; omega, _, e, hf⟩
  | ldBV x =>
    rcases exec_ldBV_cases s x with ⟨h, e⟩ | ⟨h, e⟩
    · exact .inl ⟨_, by simp [ownFault, rangeFault]; omega, e⟩
    · exact .inr ⟨by simp [ownFault, rangeFault]; omega, _, e, hf⟩
  | ldMemV x =>
    rcases exec_ldMemV_cases s x with ⟨h, e⟩ | ⟨h, e⟩
    · exact .inl ⟨_, by simp [ownFault, rangeFault]; omega, e⟩
    · exact .inr ⟨by simp [ownFault, rangeFault]; omega, _, e, hf⟩
  | ldVMem x =>
    rcases exec_ldVMem_cases s x with ⟨h, e⟩ | ⟨h, e⟩
    · exact .inl ⟨_, by simp [ownFault, rangeFault]; omega, e⟩
    · exact .inr ⟨by simp [ownFault, rangeFault]; omega, _, e, by simpa using hf⟩
  | _ => exact .inr ⟨rfl, _, rfl, hf⟩

/-! ### Frames of the register writes -/

theorem onlyRegsAndPc_setV (x : RegIx) (b : Byte) (k : Word) : onlyRegsAndPc [x] s ((s.setV x b).advance k) :=
  ⟨rfl, fun _ hr => State.getV_setV_other s b (by simpa using hr), fun _ => rfl⟩

/-! ### Flags and results as numbers (43_alu.md R88 to R101) -/

theorem add8_toNat (a b : Byte) : (add8 a b).toNat = (a.toNat + b.toNat) % 256 := by simp [add8]

theorem sub8_toNat (a b : Byte) : (sub8 a b).toNat = (a.toNat + 256 - b.toNat) % 256 := by simp [sub8]

theorem shr8_toNat (a : Byte) : (shr8 a).toNat = a.toNat / 2 := by simp [shr8, Nat.shiftRight_eq_div_pow]

theorem shrFlag_toNat (a : Byte) : (shrFlag a).toNat = a.toNat % 2 := by revert a; decide

theorem shl8_toNat (a : Byte) : (shl8 a).toNat = 2 * a.toNat % 256 := by
  simp [shl8, Nat.shiftLeft_eq, Nat.mul_comm]

theorem shlFlag_toNat (a : Byte) : (shlFlag a).toNat = a.toNat / 128 := by revert a; decide

/-- The register and the flag after a write back: the flag is written last (R90). -/
@[simp] theorem State.getV_writeBack (x r : RegIx) (result flag : Byte) :
    (s.writeBack x result flag).getV r = if r = Config.flagReg then flag else if r = x then result else s.getV r := by
  simp [State.writeBack_eq, State.getV_setV]

theorem onlyRegsAndPc_writeBack (x : RegIx) (b f : Byte) : onlyRegsAndPc [x, 0xF] s (s.writeBack x b f) := by
  refine ⟨rfl, fun r hr => ?_, fun _ => rfl⟩
  simp only [List.mem_cons, List.not_mem_nil, or_false, not_or] at hr
  simp [hr.1, hr.2]

/-! ### Operands as numbers (30_encoding.md R51) -/

theorem addrWord_toNat (nnn : Addr) : (addrWord nnn).toNat = nnn.toNat := by
  have := nnn.isLt
  simp [addrWord]; omega

theorem jumpTarget_toNat (nnn : Addr) (v : Byte) : (jumpTarget nnn v).toNat = nnn.toNat + v.toNat := by
  have := nnn.isLt
  have := v.isLt
  simp [jumpTarget, addrWord]; omega

theorem glyphAddress_toNat (v : Byte) : (glyphAddress v).toNat = 5 * (v.toNat % 16) := by
  simp only [glyphAddress, Config.fontBase, Config.glyphStride, BitVec.toNat_ofNat]; omega

theorem decay_toNat (t : Byte) : (decay t).toNat = t.toNat - 1 := by revert t; decide

end Sys2Proof.Machine
end

