-- ==== Sys2Proof/Laws/PerInstr.lean ====
section
/-! SUPPORT. The family OpcodeRow: an instruction's word matches the row of the opcode map that stands for it
(30_encoding.md R59), one lemma per constructor. -/

namespace Sys2Proof.Laws

/-- The word of `i` matches the mask and the pattern of `i`'s row. -/
def OpcodeRow.Statement (i : Instr) : Prop := i.row.matchesWord (encode i) = true

/-! ### Each format's word under the masks of R59 -/

theorem wordNNN_and_F000 (g : BitVec 4) (nnn : Addr) : wordNNN g nnn &&& 0xF000 = wordNNN g 0 := by
  refine (BitVec.and_append (x₁ := g) (x₂ := 0xF) (y₁ := nnn) (y₂ := 0#12)).trans ?_
  rw [wordNNN, BitVec.and_zero, show (0xF : BitVec 4) = BitVec.allOnes 4 from rfl, BitVec.and_allOnes]
  rfl

theorem wordXNN_and_F000 (g : BitVec 4) (x : RegIx) (nn : Byte) : wordXNN g x nn &&& 0xF000 = wordXNN g 0 0 := by
  refine (BitVec.and_append (x₁ := g ++ (BitVec.ofFin x : BitVec 4)) (x₂ := 0xF0) (y₁ := nn) (y₂ := 0#8)).trans ?_
  rw [wordXNN, BitVec.and_zero, show (0xF0 : BitVec 8) = BitVec.allOnes 4 ++ 0#4 from rfl,
    BitVec.and_append, BitVec.and_allOnes, BitVec.and_zero]
  rfl

theorem wordXNN_and_F0FF (g : BitVec 4) (x : RegIx) (nn : Byte) : wordXNN g x nn &&& 0xF0FF = wordXNN g 0 nn := by
  refine (BitVec.and_append (x₁ := g ++ (BitVec.ofFin x : BitVec 4)) (x₂ := 0xF0) (y₁ := nn) (y₂ := 0xFF)).trans ?_
  rw [wordXNN, show (0xFF : BitVec 8) = BitVec.allOnes 8 from rfl, BitVec.and_allOnes,
    show (0xF0 : BitVec 8) = BitVec.allOnes 4 ++ 0#4 from rfl,
    BitVec.and_append, BitVec.and_allOnes, BitVec.and_zero]
  rfl

theorem wordXYN_and_F000 (g : BitVec 4) (x y : RegIx) (n : Fin 16) :
    wordXYN g x y n &&& 0xF000 = wordXYN g 0 0 0 := by
  refine (BitVec.and_append (x₁ := g ++ (BitVec.ofFin x : BitVec 4) ++ (BitVec.ofFin y : BitVec 4)) (x₂ := 0xF00)
    (y₁ := (BitVec.ofFin n : BitVec 4)) (y₂ := 0#4)).trans ?_
  rw [wordXYN, BitVec.and_zero,
    show (0xF00 : BitVec 12) = BitVec.allOnes 4 ++ 0#4 ++ 0#4 from rfl,
    BitVec.and_append, BitVec.and_append, BitVec.and_allOnes, BitVec.and_zero, BitVec.and_zero]
  rfl

theorem wordXYN_and_F00F (g : BitVec 4) (x y : RegIx) (n : Fin 16) :
    wordXYN g x y n &&& 0xF00F = wordXYN g 0 0 n := by
  refine (BitVec.and_append (x₁ := g ++ (BitVec.ofFin x : BitVec 4) ++ (BitVec.ofFin y : BitVec 4)) (x₂ := 0xF00)
    (y₁ := (BitVec.ofFin n : BitVec 4)) (y₂ := 0xF)).trans ?_
  rw [wordXYN, show (0xF : BitVec 4) = BitVec.allOnes 4 from rfl, BitVec.and_allOnes,
    show (0xF00 : BitVec 12) = BitVec.allOnes 4 ++ 0#4 ++ 0#4 from rfl,
    BitVec.and_append, BitVec.and_append, BitVec.and_allOnes, BitVec.and_zero, BitVec.and_zero]
  rfl

/-! ### One lemma per constructor -/

theorem OpcodeRow.cls : OpcodeRow.Statement .cls := by
  simp only [OpcodeRow.Statement, OpcodeRow.matchesWord]
  exact beq_iff_eq.mpr (wordXNN_and_F0FF ..)

theorem OpcodeRow.ret : OpcodeRow.Statement .ret := by
  simp only [OpcodeRow.Statement, OpcodeRow.matchesWord]
  exact beq_iff_eq.mpr (wordXNN_and_F0FF ..)

theorem OpcodeRow.jp (nnn : Addr) : OpcodeRow.Statement (.jp nnn) := by
  simp only [OpcodeRow.Statement, OpcodeRow.matchesWord]
  exact beq_iff_eq.mpr (wordNNN_and_F000 ..)

theorem OpcodeRow.call (nnn : Addr) : OpcodeRow.Statement (.call nnn) := by
  simp only [OpcodeRow.Statement, OpcodeRow.matchesWord]
  exact beq_iff_eq.mpr (wordNNN_and_F000 ..)

theorem OpcodeRow.seImm (x : RegIx) (nn : Byte) : OpcodeRow.Statement (.seImm x nn) := by
  simp only [OpcodeRow.Statement, OpcodeRow.matchesWord]
  exact beq_iff_eq.mpr (wordXNN_and_F000 ..)

theorem OpcodeRow.sneImm (x : RegIx) (nn : Byte) : OpcodeRow.Statement (.sneImm x nn) := by
  simp only [OpcodeRow.Statement, OpcodeRow.matchesWord]
  exact beq_iff_eq.mpr (wordXNN_and_F000 ..)

theorem OpcodeRow.seReg (x : RegIx) (y : RegIx) : OpcodeRow.Statement (.seReg x y) := by
  simp only [OpcodeRow.Statement, OpcodeRow.matchesWord]
  exact beq_iff_eq.mpr (wordXYN_and_F000 ..)

theorem OpcodeRow.ldImm (x : RegIx) (nn : Byte) : OpcodeRow.Statement (.ldImm x nn) := by
  simp only [OpcodeRow.Statement, OpcodeRow.matchesWord]
  exact beq_iff_eq.mpr (wordXNN_and_F000 ..)

theorem OpcodeRow.addImm (x : RegIx) (nn : Byte) : OpcodeRow.Statement (.addImm x nn) := by
  simp only [OpcodeRow.Statement, OpcodeRow.matchesWord]
  exact beq_iff_eq.mpr (wordXNN_and_F000 ..)

theorem OpcodeRow.ldReg (x : RegIx) (y : RegIx) : OpcodeRow.Statement (.ldReg x y) := by
  simp only [OpcodeRow.Statement, OpcodeRow.matchesWord]
  exact beq_iff_eq.mpr (wordXYN_and_F00F ..)

theorem OpcodeRow.or (x : RegIx) (y : RegIx) : OpcodeRow.Statement (.or x y) := by
  simp only [OpcodeRow.Statement, OpcodeRow.matchesWord]
  exact beq_iff_eq.mpr (wordXYN_and_F00F ..)

theorem OpcodeRow.and (x : RegIx) (y : RegIx) : OpcodeRow.Statement (.and x y) := by
  simp only [OpcodeRow.Statement, OpcodeRow.matchesWord]
  exact beq_iff_eq.mpr (wordXYN_and_F00F ..)

theorem OpcodeRow.xor (x : RegIx) (y : RegIx) : OpcodeRow.Statement (.xor x y) := by
  simp only [OpcodeRow.Statement, OpcodeRow.matchesWord]
  exact beq_iff_eq.mpr (wordXYN_and_F00F ..)

theorem OpcodeRow.addReg (x : RegIx) (y : RegIx) : OpcodeRow.Statement (.addReg x y) := by
  simp only [OpcodeRow.Statement, OpcodeRow.matchesWord]
  exact beq_iff_eq.mpr (wordXYN_and_F00F ..)

theorem OpcodeRow.sub (x : RegIx) (y : RegIx) : OpcodeRow.Statement (.sub x y) := by
  simp only [OpcodeRow.Statement, OpcodeRow.matchesWord]
  exact beq_iff_eq.mpr (wordXYN_and_F00F ..)

theorem OpcodeRow.shr (x : RegIx) (y : RegIx) : OpcodeRow.Statement (.shr x y) := by
  simp only [OpcodeRow.Statement, OpcodeRow.matchesWord]
  exact beq_iff_eq.mpr (wordXYN_and_F00F ..)

theorem OpcodeRow.subn (x : RegIx) (y : RegIx) : OpcodeRow.Statement (.subn x y) := by
  simp only [OpcodeRow.Statement, OpcodeRow.matchesWord]
  exact beq_iff_eq.mpr (wordXYN_and_F00F ..)

theorem OpcodeRow.shl (x : RegIx) (y : RegIx) : OpcodeRow.Statement (.shl x y) := by
  simp only [OpcodeRow.Statement, OpcodeRow.matchesWord]
  exact beq_iff_eq.mpr (wordXYN_and_F00F ..)

theorem OpcodeRow.sneReg (x : RegIx) (y : RegIx) : OpcodeRow.Statement (.sneReg x y) := by
  simp only [OpcodeRow.Statement, OpcodeRow.matchesWord]
  exact beq_iff_eq.mpr (wordXYN_and_F000 ..)

theorem OpcodeRow.ldI (nnn : Addr) : OpcodeRow.Statement (.ldI nnn) := by
  simp only [OpcodeRow.Statement, OpcodeRow.matchesWord]
  exact beq_iff_eq.mpr (wordNNN_and_F000 ..)

theorem OpcodeRow.jpV0 (nnn : Addr) : OpcodeRow.Statement (.jpV0 nnn) := by
  simp only [OpcodeRow.Statement, OpcodeRow.matchesWord]
  exact beq_iff_eq.mpr (wordNNN_and_F000 ..)

theorem OpcodeRow.rnd (x : RegIx) (nn : Byte) : OpcodeRow.Statement (.rnd x nn) := by
  simp only [OpcodeRow.Statement, OpcodeRow.matchesWord]
  exact beq_iff_eq.mpr (wordXNN_and_F000 ..)

theorem OpcodeRow.drw (x : RegIx) (y : RegIx) (n : Rows) : OpcodeRow.Statement (.drw x y n) := by
  simp only [OpcodeRow.Statement, OpcodeRow.matchesWord]
  exact beq_iff_eq.mpr (wordXYN_and_F000 ..)

theorem OpcodeRow.skp (x : RegIx) : OpcodeRow.Statement (.skp x) := by
  simp only [OpcodeRow.Statement, OpcodeRow.matchesWord]
  exact beq_iff_eq.mpr (wordXNN_and_F0FF ..)

theorem OpcodeRow.sknp (x : RegIx) : OpcodeRow.Statement (.sknp x) := by
  simp only [OpcodeRow.Statement, OpcodeRow.matchesWord]
  exact beq_iff_eq.mpr (wordXNN_and_F0FF ..)

theorem OpcodeRow.ldVDt (x : RegIx) : OpcodeRow.Statement (.ldVDt x) := by
  simp only [OpcodeRow.Statement, OpcodeRow.matchesWord]
  exact beq_iff_eq.mpr (wordXNN_and_F0FF ..)

theorem OpcodeRow.ldVK (x : RegIx) : OpcodeRow.Statement (.ldVK x) := by
  simp only [OpcodeRow.Statement, OpcodeRow.matchesWord]
  exact beq_iff_eq.mpr (wordXNN_and_F0FF ..)

theorem OpcodeRow.ldDtV (x : RegIx) : OpcodeRow.Statement (.ldDtV x) := by
  simp only [OpcodeRow.Statement, OpcodeRow.matchesWord]
  exact beq_iff_eq.mpr (wordXNN_and_F0FF ..)

theorem OpcodeRow.ldStV (x : RegIx) : OpcodeRow.Statement (.ldStV x) := by
  simp only [OpcodeRow.Statement, OpcodeRow.matchesWord]
  exact beq_iff_eq.mpr (wordXNN_and_F0FF ..)

theorem OpcodeRow.addIV (x : RegIx) : OpcodeRow.Statement (.addIV x) := by
  simp only [OpcodeRow.Statement, OpcodeRow.matchesWord]
  exact beq_iff_eq.mpr (wordXNN_and_F0FF ..)

theorem OpcodeRow.ldFV (x : RegIx) : OpcodeRow.Statement (.ldFV x) := by
  simp only [OpcodeRow.Statement, OpcodeRow.matchesWord]
  exact beq_iff_eq.mpr (wordXNN_and_F0FF ..)

theorem OpcodeRow.ldBV (x : RegIx) : OpcodeRow.Statement (.ldBV x) := by
  simp only [OpcodeRow.Statement, OpcodeRow.matchesWord]
  exact beq_iff_eq.mpr (wordXNN_and_F0FF ..)

theorem OpcodeRow.ldMemV (x : RegIx) : OpcodeRow.Statement (.ldMemV x) := by
  simp only [OpcodeRow.Statement, OpcodeRow.matchesWord]
  exact beq_iff_eq.mpr (wordXNN_and_F0FF ..)

theorem OpcodeRow.ldVMem (x : RegIx) : OpcodeRow.Statement (.ldVMem x) := by
  simp only [OpcodeRow.Statement, OpcodeRow.matchesWord]
  exact beq_iff_eq.mpr (wordXNN_and_F0FF ..)

end Sys2Proof.Laws
end

