-- ==== Sys2Proof/Laws/Tick.lean ====
section
/-! SUPPORT. Everything a tick and a step can do (40_cycle.md R76), said once. -/

namespace Sys2Proof.Machine

/-- Everything fetching and executing can answer: a fetch fault, an illegal word, or the decoded instruction. -/
theorem State.fetchExecute_cases (s : State) (rnd : Byte) :
    (0xFFE < s.pc.toNat ∧
      s.fetchExecute rnd = .next (s.raise (.memoryOutOfRange (max s.pc.toNat 0x1000)))) ∨
    (s.pc.toNat ≤ 0xFFE ∧ (∃ e, decodeWord (s.wordAt s.pc.toNat) = .error e) ∧
      s.fetchExecute rnd = .next (s.raise (.illegalInstruction (s.wordAt s.pc.toNat)))) ∨
    (s.pc.toNat ≤ 0xFFE ∧ ∃ i, decodeWord (s.wordAt s.pc.toNat) = .ok i ∧
      s.fetchExecute rnd = exec i { s with rnd := rnd }) := by
  rcases inRange_cases s s.pc.toNat 2 (s.executeWord (s.wordAt s.pc.toNat) rnd) with ⟨_, h, e⟩ | ⟨h, e⟩
  · exact .inl ⟨by omega, e⟩
  · have hpc : s.pc.toNat ≤ 0xFFE := by omega
    rcases hd : decodeWord (s.wordAt s.pc.toNat) with r | i
    · exact .inr (.inl ⟨hpc, ⟨r, rfl⟩, e.trans (by simp [State.executeWord, hd])⟩)
    · exact .inr (.inr ⟨hpc, i, rfl, e.trans (by simp [State.executeWord, hd])⟩)

/-- Everything a tick can do: nothing when halted, the scan when waiting, else decay, fetch and execute. -/
theorem tick_cases (keypad : Keypad) (rnd : Byte) (s : State) :
    (s.fault ≠ none ∧ tick keypad rnd s = .next s) ∨
    (s.fault = none ∧ s.waiting = true ∧ tick keypad rnd s = .next (s.latch keypad).scanKeys) ∨
    (s.fault = none ∧ s.waiting = false ∧
      tick keypad rnd s = (s.latch keypad).decayTimers.fetchExecute rnd) := by
  cases hf : s.fault <;> cases hw : s.waiting <;> simp [tick, State.halted, hf, hw]

/-- Everything the scan of a waiting tick can do (R69). -/
theorem State.scanKeys_cases (s : State) :
    ((∀ j : KeyIx, s.key[j.val] = false) ∧ s.scanKeys = s) ∨
    ∃ k : KeyIx, s.key[k.val] = true ∧ (∀ j : KeyIx, j < k → s.key[j.val] = false) ∧
      s.scanKeys = { s.setV s.waitReg (BitVec.ofNat 8 k.val) with waiting := false } := by
  rcases hk : firstPressed s.key with _ | k
  · exact .inl ⟨firstPressed_eq_none.mp hk, by simp [State.scanKeys, hk]⟩
  · have := firstPressed_eq_some.mp hk
    exact .inr ⟨k, this.1, this.2, by simp [State.scanKeys, hk]⟩

/-- Everything a step can do: a tick with the script's inputs, a load, or a tick with free inputs. -/
theorem step_cases (s : State) :
    (∃ keypad rnd rest, s.script = .tick keypad rnd :: rest ∧
      step s = tick keypad rnd { s with script := rest }) ∨
    (∃ data rest, s.script = .load data :: rest ∧ step s = .next ({ s with script := rest }.load data)) ∨
    (s.script = [] ∧ step s =
      tick (Config.freeKeypad s.freeTicks) (Config.freeRnd s.freeTicks) { s with freeTicks := s.freeTicks + 1 }) := by
  rcases hs : s.script with _ | ⟨_ | _, rest⟩ <;> simp [step, hostTransaction, hs]

/-- A run of one step more, where that step answers a next state. -/
theorem run_succ {s t : State} (n : Nat) (h : step s = .next t) : core.run (n + 1) s = core.run n t := by
  have h' : core.step s = .next t := h
  simp only [Host.Core.run, h']

/-! ### Loads -/

/-- No load writes below 0x200 (70_reset_and_hazards.md R132, 20_memory.md R37). -/
theorem read_afterLoads_low (m : Memory) (calls : List HostCall) {a : Nat} (h : a < 0x200) :
    Memory.read (afterLoads m calls) a = Memory.read m a := by
  induction calls generalizing m with
  | nil => rfl
  | cons c rest ih =>
    cases c with
    | tick _ _ => exact ih m
    | load data => exact (ih _).trans (by rw [Memory.read_load, dif_neg (by simp only [Config.programBase]; omega)])

/-- Ticks alone load nothing. -/
theorem afterLoads_ticks (m : Memory) (calls : List HostCall) (h : ∀ c ∈ calls, c.isTick = true) :
    afterLoads m calls = m := by
  induction calls with
  | nil => rfl
  | cons c rest ih =>
    cases c with
    | tick _ _ => exact ih fun d hd => h d (List.mem_cons_of_mem _ hd)
    | load data => exact absurd (h _ List.mem_cons_self) (by simp [HostCall.isTick])

end Sys2Proof.Machine
end

