-- ==== Sys2Proof/Tests/Slice0.lean ====
section
/-! SUPPORT. The model's own tests. Every expected value comes from spec/: the vector, the rule's example or the table
named beside it. After them, one witness for each statement that has hypotheses. -/

namespace Sys2Proof.Tests

open Sys2Proof.Machine

/-! ### Helpers -/

/-- The construction state with one instruction word at its `pc` (95_test_vectors.md, conventions). -/
def start (w : Nat) : State := State.reset.withFetchWord 16 w

/-- No key pressed. -/
def keysUp : Keypad := Vector.replicate 16 false

/-- Exactly these keys pressed. -/
def keysDown (ks : List KeyIx) : Keypad := Vector.ofFn fun k => ks.contains k

/-- The state an outcome holds. -/
def stateOf : Result → State
  | .next t => t
  | .fault _ => State.reset
  | .refused _ => State.reset

/-- One tick with no key pressed and `rnd = 0x00`. -/
def one (s : State) : State := stateOf (tick keysUp 0 s)

/-! ### Well-formed lines: one ill-formed line for each check (30_encoding.md R63) -/

theorem test_wf_line : Line.wf ⟨.drw, [.v 0xF, .v 0, .nibble 15]⟩ = true := by decide
theorem test_wf_register_range : Line.wf ⟨.ld, [.v 16, .byte 5]⟩ = false := by decide
theorem test_wf_byte_range : Line.wf ⟨.ld, [.v 0, .byte 256]⟩ = false := by decide
theorem test_wf_addr_range : Line.wf ⟨.jp, [.addr 4096]⟩ = false := by decide
theorem test_wf_nibble_range : Line.wf ⟨.drw, [.v 0, .v 1, .nibble 16]⟩ = false := by decide
theorem test_wf_form : Line.wf ⟨.ld, [.dt, .byte 5]⟩ = false := by decide
theorem test_wf_operand_count : Line.wf ⟨.cls, [.v 0]⟩ = false := by decide
theorem test_wf_jump_register : Line.wf ⟨.jp, [.v 1, .addr 0x300]⟩ = false := by decide

/-- Lines of the listings P1, P2, P3 and P5 of 95_test_vectors.md, and SHR without Vy (R63). -/
theorem test_assemble :
    assemble ⟨.ld, [.v 0, .byte 0x05]⟩ = some 0x6005 ∧ assemble ⟨.jp, [.addr 0x204]⟩ = some 0x1204 ∧
    assemble ⟨.ld, [.b, .v 0xA]⟩ = some 0xFA33 ∧ assemble ⟨.drw, [.v 1, .v 2, .nibble 5]⟩ = some 0xD125 ∧
    assemble ⟨.ld, [.v 2, .k]⟩ = some 0xF20A ∧ assemble ⟨.shr, [.v 0]⟩ = some 0x8006 := by decide

/-! ### Decoding: words written out from 30_encoding.md R59 -/

theorem test_decode_display : decodeWord 0x00E0 = .ok .cls ∧ decodeWord 0xD015 = .ok (.drw 0 1 5) := by decide
theorem test_decode_control :
    decodeWord 0x00EE = .ok .ret ∧ decodeWord 0x1234 = .ok (.jp 0x234) ∧ decodeWord 0x2300 = .ok (.call 0x300) ∧
    decodeWord 0x3210 = .ok (.seImm 2 0x10) ∧ decodeWord 0x4210 = .ok (.sneImm 2 0x10) ∧
    decodeWord 0x5010 = .ok (.seReg 0 1) ∧ decodeWord 0x9010 = .ok (.sneReg 0 1) ∧
    decodeWord 0xBFFF = .ok (.jpV0 0xFFF) := by decide
theorem test_decode_alu_immediate :
    decodeWord 0x6A7B = .ok (.ldImm 0xA 0x7B) ∧ decodeWord 0x70FF = .ok (.addImm 0 0xFF) ∧
    decodeWord 0xC30F = .ok (.rnd 3 0x0F) := by decide
theorem test_decode_alu_register :
    decodeWord 0x8010 = .ok (.ldReg 0 1) ∧ decodeWord 0x8011 = .ok (.or 0 1) ∧ decodeWord 0x8012 = .ok (.and 0 1) ∧
    decodeWord 0x8013 = .ok (.xor 0 1) ∧ decodeWord 0x8F14 = .ok (.addReg 0xF 1) ∧
    decodeWord 0x8015 = .ok (.sub 0 1) ∧ decodeWord 0x8016 = .ok (.shr 0 1) ∧ decodeWord 0x8017 = .ok (.subn 0 1) ∧
    decodeWord 0x801E = .ok (.shl 0 1) := by decide
theorem test_decode_index_memory :
    decodeWord 0xA2F0 = .ok (.ldI 0x2F0) ∧ decodeWord 0xF41E = .ok (.addIV 4) ∧ decodeWord 0xF029 = .ok (.ldFV 0) ∧
    decodeWord 0xFA33 = .ok (.ldBV 0xA) ∧ decodeWord 0xFF55 = .ok (.ldMemV 0xF) ∧
    decodeWord 0xF265 = .ok (.ldVMem 2) := by decide
theorem test_decode_keypad_timers :
    decodeWord 0xE19E = .ok (.skp 1) ∧ decodeWord 0xE1A1 = .ok (.sknp 1) ∧ decodeWord 0xF207 = .ok (.ldVDt 2) ∧
    decodeWord 0xF30A = .ok (.ldVK 3) ∧ decodeWord 0xF015 = .ok (.ldDtV 0) ∧ decodeWord 0xF018 = .ok (.ldStV 0) := by
  decide

/-- Vectors DC2, DC5: bits that select nothing (R53, R54). -/
theorem test_decode_ignored_bits : decodeWord 0x03E0 = .ok .cls ∧ decodeWord 0x5121 = .ok (.seReg 1 2) := by decide

/-- Vectors DC1, DC3, DC4, DC6, DC7, DC8. -/
theorem test_decode_illegal :
    decodeWord 0x0000 = .error (.group0 0x00) ∧ decodeWord 0x00EF = .error (.group0 0xEF) ∧
    decodeWord 0x0123 = .error (.group0 0x23) ∧ decodeWord 0x8008 = .error (.group8 0x8) ∧
    decodeWord 0x800F = .error (.group8 0xF) ∧ decodeWord 0xE09F = .error (.groupE 0x9F) ∧
    decodeWord 0xF000 = .error (.groupF 0x00) ∧ decodeWord 0xFFFF = .error (.groupF 0xFF) := by decide

theorem test_decode_truncated : decode [0x60] = .error .truncated := by decide
theorem test_decode_rest : decode [0x60, 0x05, 0x70, 0x03] = .ok (.ldImm 0 5, [0x70, 0x03]) := by decide

/-- The words of R59's example column, from an instruction's fields. -/
theorem test_encode :
    encode .cls = 0x00E0 ∧ encode (.jp 0x234) = 0x1234 ∧ encode (.seReg 0 1) = 0x5010 ∧
    encode (.shl 0 1) = 0x801E ∧ encode (.drw 1 2 5) = 0xD125 ∧ encode (.sknp 1) = 0xE1A1 ∧
    encode (.ldVMem 2) = 0xF265 := by decide

/-- No two rows of the opcode map match the same word (R59). -/
theorem test_rows_disjoint :
    opcodeTable.Pairwise fun r q => (r.pattern ^^^ q.pattern) &&& r.mask &&& q.mask ≠ 0 := by decide

/-! ### Memory -/

theorem test_memory_read_back : Memory.read (Memory.write [] 0x300 0xAB) 0x300 = 0xAB := by decide
theorem test_memory_canonical : Memory.write (Memory.write [] 0x300 0xAB) 0x300 0x00 = [] := by decide
theorem test_memory_font_canonical : Memory.write [] 0x037 0xE0 = [] := by decide
theorem test_memory_order : Memory.wf (Memory.writeBytes [] 0x400 [1, 2]) ∧
    Memory.write (Memory.write [] 0x400 1) 0x300 2 = [(0x300, 2), (0x400, 1)] := by decide

/-- The end of a load: the byte for 0xFFF is written, the next is dropped (R132). -/
theorem test_load_end : Memory.load [] 0xFFF [0x12, 0x34] = [(0xFFF, 0x12)] := by decide

/-! ### Cycle (95_test_vectors.md DC1, DC9 to DC12) -/

theorem test_first_tick_illegal :
    (one State.reset).fault = some ⟨.illegalInstruction 0x0000, 0x200⟩ ∧ (one State.reset).pc = 0x200 := by decide
theorem test_fetch_at_top :
    (one { State.reset with pc := 0xFFF }).fault = some ⟨.memoryOutOfRange 0x1000, 0xFFF⟩ ∧
    (one { State.reset with pc := 0x1000 }).fault = some ⟨.memoryOutOfRange 0x1000, 0x1000⟩ := by decide
theorem test_decay_before_fault :
    (one { State.reset with DT := 5, ST := 1 }).DT = 4 ∧ (one { State.reset with DT := 5, ST := 1 }).ST = 0 := by decide
theorem test_halted_keeps_keys : (stateOf (tick (keysDown [4]) 0 (one State.reset))).keyPressed 4 = false := by decide

/-! ### Display (DS1 to DS7) -/

theorem test_cls : getPixel (one { start 0x00E0 with fb := setPixel State.reset.fb 3 5 true }).fb 3 5 = false ∧
    (one (start 0x00E0)).changed = true := by decide

/-- DS2: the glyph of digit 0 at (0, 0). -/
theorem test_drw_glyph :
    let t := one (start 0xD015)
    (List.range 8).map (fun c => getPixel t.fb 0 (Fin.ofNat Config.width c)) = [true, true, true, true, false, false, false, false] ∧
    (List.range 8).map (fun c => getPixel t.fb 1 (Fin.ofNat Config.width c)) = [true, false, false, true, false, false, false, false] ∧
    t.getV 0xF = 0 ∧ t.changed = true ∧ t.pc = 0x202 := by decide

/-- DS3: columns 60 to 63 and 0 to 3 of row 31. -/
theorem test_drw_wraps :
    let t := one ((((start 0xD011).storeBytes 0x300 [0xFF]).setI 0x300).setV 0 0x3C |>.setV 1 0x1F)
    getPixel t.fb 31 60 = true ∧ getPixel t.fb 31 63 = true ∧ getPixel t.fb 31 0 = true ∧
    getPixel t.fb 31 3 = true ∧ getPixel t.fb 31 4 = false ∧ getPixel t.fb 31 59 = false := by decide

/-! ### Control flow (CF1 to CF15) -/

theorem test_ret_empty : (one (start 0x00EE)).fault = some ⟨.stackUnderflow, 0x200⟩ := by decide
theorem test_ret : (one { start 0x00EE with sp := 1, stack := State.reset.stack.set 0 0x202 }).pc = 0x202 := by decide
theorem test_jp : (one (start 0x1234)).pc = 0x234 := by decide
theorem test_call : (one (start 0x2300)).stack[0] = 0x202 ∧ (one (start 0x2300)).sp = 1 ∧
    (one (start 0x2300)).pc = 0x300 := by decide
theorem test_call_full : (one { start 0x2300 with sp := 16 }).fault = some ⟨.stackOverflow, 0x200⟩ := by decide
theorem test_se_imm : (one ((start 0x3210).setV 2 0x10)).pc = 0x204 ∧ (one ((start 0x3210).setV 2 0x11)).pc = 0x202 := by
  decide
theorem test_sne_imm :
    (one ((start 0x4210).setV 2 0x10)).pc = 0x202 ∧ (one ((start 0x4210).setV 2 0x11)).pc = 0x204 := by decide
theorem test_se_reg : (one (((start 0x5010).setV 0 5).setV 1 5)).pc = 0x204 ∧
    (one (((start 0x5010).setV 0 5).setV 1 6)).pc = 0x202 := by decide
theorem test_sne_reg : (one (((start 0x9010).setV 0 5).setV 1 6)).pc = 0x204 ∧
    (one (((start 0x9010).setV 0 5).setV 1 5)).pc = 0x202 := by decide
theorem test_jp_v0 : (one ((start 0xB300).setV 0 0x04)).pc = 0x304 := by decide
theorem test_jp_v0_no_wrap :
    (one ((start 0xBFFF).setV 0 0xFF)).pc = 0x10FE ∧
    (one (one ((start 0xBFFF).setV 0 0xFF))).fault = some ⟨.memoryOutOfRange 0x10FE, 0x10FE⟩ := by decide

/-! ### ALU (A1 to A23 and the rules' examples) -/

theorem test_ld_imm : (one (start 0x6005)).getV 0 = 5 ∧ (one (start 0x6005)).pc = 0x202 := by decide
theorem test_add_imm_no_flag :
    (one (((start 0x70FF).setV 0 2).setV 0xF 0x55)).getV 0 = 1 ∧
    (one (((start 0x70FF).setV 0 2).setV 0xF 0x55)).getV 0xF = 0x55 := by decide
theorem test_add_imm_to_flag : (one ((start 0x7FFF).setV 0xF 2)).getV 0xF = 1 := by decide
theorem test_ld_reg : (one ((start 0x8010).setV 1 0x2A)).getV 0 = 0x2A := by decide
theorem test_or : (one (((start 0x8011).setV 0 0x0F).setV 1 0xF0)).getV 0 = 0xFF := by decide
theorem test_and : (one (((start 0x8012).setV 0 0x3C).setV 1 0x0F)).getV 0 = 0x0C := by decide
theorem test_xor : (one (((start 0x8013).setV 0 0xFF).setV 1 0x0F)).getV 0 = 0xF0 := by decide
theorem test_add_flag_overwrites_sum : (one (((start 0x8F14).setV 0xF 0xF0).setV 1 0x20)).getV 0xF = 1 := by decide
theorem test_add_reads_flag_first :
    (one (((start 0x80F4).setV 0 1).setV 0xF 0xFF)).getV 0 = 0 ∧
    (one (((start 0x80F4).setV 0 1).setV 0xF 0xFF)).getV 0xF = 1 := by decide
theorem test_sub_wraps : (one (((start 0x8015).setV 0 0x00).setV 1 0x01)).getV 0 = 0xFF := by decide
theorem test_subn_order : (one (((start 0x8017).setV 0 0x07).setV 1 0x05)).getV 0 = 0xFE := by decide

/-- A6 and A7: the flag of 8015 under BORROW, NOT_BORROW, GREATER. -/
theorem test_subflag :
    [Config.SubFlagPolarity.borrow, .notBorrow, .greater].map (subFlag · 0x05 0x05) = [0, 1, 0] ∧
    [Config.SubFlagPolarity.borrow, .notBorrow, .greater].map (subFlag · 0x05 0x07) = [1, 0, 0] ∧
    [Config.SubFlagPolarity.borrow, .notBorrow, .greater].map (subFlag · 0x07 0x05) = [0, 1, 1] := by decide

theorem test_shr : (one ((start 0x8006).setV 0 0x01)).getV 0 = 0x00 ∧ (one ((start 0x8006).setV 0 0x01)).getV 0xF = 1 := by
  decide
theorem test_shl : (one ((start 0x800E).setV 0 0x80)).getV 0 = 0x00 ∧ (one ((start 0x800E).setV 0 0x80)).getV 0xF = 1 := by
  decide

/-- A22: the source register with SHIFT_SOURCE = VY. -/
theorem test_shift_source_vy :
    shr8 (shiftOperand .vy 0 1 ((State.reset.setV 0 0xFF).setV 1 0x02)) = 0x01 ∧
    shl8 (shiftOperand .vy 0 1 ((State.reset.setV 0 0x01).setV 1 0x81)) = 0x02 := by decide
theorem test_rnd : (stateOf (tick keysUp 0xB7 (start 0xC30F))).getV 3 = 0x07 := by decide

/-! ### Index register and memory (M1 to M13) -/

theorem test_ld_i : (one (start 0xA2F0)).I = 0x2F0 := by decide
theorem test_add_i : (one (((start 0xF01E).setI 0xFFF).setV 0 1)).I = 0x1000 ∧
    (one (((start 0xF01E).setI 0xFFF).setV 0 1)).getV 0xF = 0 := by decide
theorem test_add_i_wraps : (one (((start 0xF01E).setI 0xFFFF).setV 0 2)).I = 0x0001 := by decide
theorem test_ld_f :
    (one ((start 0xF029).setV 0 0x0B)).I = 0x037 ∧ (one ((start 0xF029).setV 0 0x1A)).I = 0x032 := by decide
theorem test_ld_b :
    Memory.readBytes (one (((start 0xF033).setI 0x300).setV 0 0xFE)).mem 0x300 3 = [2, 5, 4] ∧
    Memory.readBytes (one (((start 0xF033).setI 0xFFD).setV 0 0x01)).mem 0xFFD 3 = [0, 0, 1] := by decide
theorem test_ld_b_outside :
    (one ((start 0xF033).setI 0xFFE)).fault = some ⟨.memoryOutOfRange 0x1000, 0x200⟩ := by decide
theorem test_dump :
    let t := one (((((start 0xF255).setI 0x400).setV 0 1).setV 1 2).setV 2 3)
    Memory.readBytes t.mem 0x400 4 = [1, 2, 3, 0] ∧ t.I = 0x400 := by decide
theorem test_dump_edges :
    (one ((start 0xFF55).setI 0xFF0)).fault = none ∧
    (one ((start 0xFF55).setI 0xFF1)).fault = some ⟨.memoryOutOfRange 0x1000, 0x200⟩ := by decide
theorem test_load_registers :
    let t := one (((start 0xF265).storeBytes 0x400 [1, 2, 3]).setI 0x400)
    t.getV 0 = 1 ∧ t.getV 1 = 2 ∧ t.getV 2 = 3 ∧ t.getV 3 = 0 := by decide
theorem test_load_registers_outside :
    (one ((start 0xF265).setI 0x1000)).fault = some ⟨.memoryOutOfRange 0x1000, 0x200⟩ := by decide

/-! ### Keypad and timers (K1 to K11) -/

theorem test_skp : (stateOf (tick (keysDown [5]) 0 ((start 0xE19E).setV 1 5))).pc = 0x204 ∧
    (one ((start 0xE19E).setV 1 5)).pc = 0x202 := by decide
theorem test_skp_outside : (one ((start 0xE09E).setV 0 0x10)).fault = some ⟨.keyOutOfRange 0x10, 0x200⟩ := by decide
theorem test_sknp : (one ((start 0xE1A1).setV 1 5)).pc = 0x204 ∧
    (stateOf (tick (keysDown [0xF]) 0 ((start 0xE0A1).setV 0 0xF))).pc = 0x202 := by decide
theorem test_ld_v_dt : (one { start 0xF207 with DT := 3 }).DT = 2 ∧ (one { start 0xF207 with DT := 3 }).getV 2 = 2 := by
  decide

/-- K7 and K8: the key of FX0A's own tick is not scanned; the lowest index wins. -/
theorem test_wait :
    let t := stateOf (tick (keysDown [4]) 0 (start 0xFF0A))
    let u := stateOf (tick (keysDown [3, 8]) 0 t)
    t.waiting = true ∧ t.getV 0xF = 0 ∧ t.pc = 0x202 ∧ u.getV 0xF = 3 ∧ u.waiting = false ∧ u.pc = 0x202 := by decide
theorem test_wait_freezes_timers : (one { State.reset with waiting := true, DT := 5 }).DT = 5 := by decide
theorem test_ld_dt_v : (one ((start 0xF015).setV 0 0x3C)).DT = 0x3C := by decide
theorem test_ld_st_v : (one ((start 0xF018).setV 0 0x02)).ST = 2 ∧ (one ((start 0xF018).setV 0 0x02)).soundActive = true := by
  decide

/-! ### The fixed interface -/

theorem test_decodeTableWord : decodeTableWord 16 0x8014 = some (.addReg 0 1) ∧ decodeTableWord 16 0x8008 = none := by decide

/-- `withFetchWord` places the word where the next step fetches it, also from a halted state outside memory. -/
theorem test_withFetchWord :
    (start 0x6005).wordAt 0x200 = 0x6005 ∧
    ((State.raise { State.reset with pc := 0x1000 } .stackOverflow).withFetchWord 16 0x6005).fault = none := by decide
theorem test_step_runs_placed_word : (stateOf (step (start 0x6005))).V[0] = 5 ∧ (stateOf (step (start 0x6005))).pc = 0x202 := by
  decide

/-! ### Witnesses: for each statement with hypotheses, states and operands that meet them together, at the edges -/

/-- A block halted by its first tick. -/
def halted : State := one State.reset

/-- A block waiting for a key into V[3]. -/
def waitingState : State := { State.reset with waiting := true, waitReg := 3 }

theorem test_witness_ConstructionState : 0x050 ≤ 0x050 ∧ 0x050 ≤ 0xFFF ∧ 0x050 ≤ 0xFFF ∧ 0xFFF ≤ 0xFFF := by decide
theorem test_witness_EncodeOfDecode : decodeWord 0x03E0 = .ok .cls := by decide
theorem test_witness_DecodeFollowsOpcodeMap :
    decodeWord 0xF265 = .ok (.ldVMem 2) ∧ ∃ r ∈ opcodeTable, r.matchesWord 0xF265 = true :=
  ⟨by decide, (Instr.ldVMem 2).row, by decide, by decide⟩
theorem test_witness_SingleInstructionGroups :
    (0x1FFF : Word).toNat / 4096 = 0x1 ∧ (0x2000 : Word).toNat / 4096 = 0x2 ∧ (0x3000 : Word).toNat / 4096 = 0x3 ∧
    (0x4FFF : Word).toNat / 4096 = 0x4 ∧ (0x5121 : Word).toNat / 4096 = 0x5 ∧ (0x6005 : Word).toNat / 4096 = 0x6 ∧
    (0x70FF : Word).toNat / 4096 = 0x7 ∧ (0x9010 : Word).toNat / 4096 = 0x9 ∧ (0xA2F0 : Word).toNat / 4096 = 0xA ∧
    (0xBFFF : Word).toNat / 4096 = 0xB ∧ (0xC30F : Word).toNat / 4096 = 0xC ∧ (0xDFFF : Word).toNat / 4096 = 0xD := by
  decide
theorem test_witness_SecondLevelDispatch :
    (0x00E0 : Word).toNat / 4096 = 0x0 ∧ (0x8FFF : Word).toNat / 4096 = 0x8 ∧ (0xE000 : Word).toNat / 4096 = 0xE ∧
    (0xFFFF : Word).toNat / 4096 = 0xF := by decide
theorem test_witness_AssemblyRoundTrip :
    Line.wf ⟨.jp, [.v 0, .addr 0xFFF]⟩ = true ∧ Line.wf ⟨.jp, [.v 0, .addr 0x1000]⟩ = false := by decide

/-- I = 0xFF1 with 15 rows ends at 0xFFF; 0xFF2 leaves memory; no row at 0x5000 is no access. -/
theorem test_witness_DrwXorsSprite :
    (0 < (15 : Rows).val ∧ 0xFFF < (State.reset.setI 0xFF2).I.toNat + (15 : Rows).val - 1) ∧
    (State.reset.setI 0xFF1).I.toNat + (15 : Rows).val - 1 ≤ 0xFFF ∧
    ((0 : Rows).val = 0 ∧ 0xFFF < (State.reset.setI 0x5000).I.toNat) := by decide
theorem test_witness_DrwXorsSprite_collides :
    ∃ r c, getPixel (one (start 0xD015)).fb r c = true ∧ spriteHits (one (start 0xD015)) 0 0 5 r c = true :=
  ⟨0, 0, by decide, by decide⟩
theorem test_witness_DrwXorsSprite_no_collision :
    ¬ ∃ r c, getPixel State.reset.fb r c = true ∧ spriteHits State.reset 0 0 5 r c = true := by
  rintro ⟨r, c, h, -⟩
  rw [show State.reset.fb = clearFramebuffer from rfl, getPixel_clear] at h
  cases h
theorem test_witness_DrwTwiceRestores :
    (0 : RegIx) ≠ 0xF ∧ (1 : RegIx) ≠ 0xF ∧ State.reset.I.toNat + (5 : Rows).val - 1 ≤ 0xFFF := by decide
theorem test_witness_RetPops :
    State.reset.sp.val = 0 ∧ ({ State.reset with sp := 1 } : State).sp.val = (0 : Fin 16).val + 1 ∧
    ({ State.reset with sp := 16 } : State).sp.val = (15 : Fin 16).val + 1 := by decide
theorem test_witness_CallPushes :
    ({ State.reset with sp := 16 } : State).sp.val = 16 ∧ State.reset.sp.val = (0 : Fin 16).val ∧
    ({ State.reset with sp := 15 } : State).sp.val = (15 : Fin 16).val := by decide
theorem test_witness_CallThenRetReturns :
    State.reset.sp.val < 16 ∧ exec (.call 0x300) State.reset = .next (stateOf (exec (.call 0x300) State.reset)) :=
  ⟨by decide, rfl⟩
theorem test_witness_flag_instructions : (0 : RegIx) ≠ 0xF ∧ (0xE : RegIx) ≠ 0xF := by decide
theorem test_witness_RndMasksRandomByte :
    (start 0xC30F).fault = none ∧ (start 0xC30F).waiting = false ∧ (start 0xC30F).pc.toNat ≤ 0xFFE ∧
    decodeWord ((start 0xC30F).wordAt (start 0xC30F).pc.toNat) = .ok (.rnd 3 0x0F) := by decide
theorem test_witness_LdFPointsAtGlyph : ∀ a, a < 80 → State.reset.readByte a = resetByte a := fun _ _ => rfl
theorem test_witness_LdBStoresDigits :
    0xFFF < (State.reset.setI 0xFFE).I.toNat + 2 ∧ (State.reset.setI 0xFFD).I.toNat + 2 ≤ 0xFFF := by decide
theorem test_witness_RegisterDump_RegisterLoad :
    0xFFF < (State.reset.setI 0xFF1).I.toNat + (0xF : RegIx).val ∧
    (State.reset.setI 0xFF0).I.toNat + (0xF : RegIx).val ≤ 0xFFF ∧
    (State.reset.setI 0xFFF).I.toNat + (0 : RegIx).val ≤ 0xFFF := by decide
theorem test_witness_DumpThenLoadRestores :
    (State.reset.setI 0xFF0).I.toNat + (0xF : RegIx).val ≤ 0xFFF ∧
    exec (.ldMemV 0xF) (State.reset.setI 0xFF0) = .next (stateOf (exec (.ldMemV 0xF) (State.reset.setI 0xFF0))) ∧
    (stateOf (exec (.ldMemV 0xF) (State.reset.setI 0xFF0))).I = (State.reset.setI 0xFF0).I := ⟨by decide, rfl, rfl⟩
theorem test_witness_StoredBytesAreFetched :
    let s := State.reset.setI 0xFFE
    let d := State.reset.setI 0xFFD
    (s.I.toNat + (1 : RegIx).val ≤ 0xFFF ∧ (1 : RegIx).val = (0 : RegIx).val + 1 ∧ (1 : RegIx) ≤ 1 ∧
      ((stateOf (exec (.ldMemV 1) s)).setPc 0xFFE).mem = (stateOf (exec (.ldMemV 1) s)).mem ∧
      ((stateOf (exec (.ldMemV 1) s)).setPc 0xFFE).pc.toNat = s.I.toNat + (0 : RegIx).val ∧
      ((stateOf (exec (.ldMemV 1) s)).setPc 0xFFE).fault = none ∧
      ((stateOf (exec (.ldMemV 1) s)).setPc 0xFFE).waiting = false) ∧
    (d.I.toNat + 2 ≤ 0xFFF ∧ ((stateOf (exec (.ldBV 0) d)).setPc 0xFFE).pc.toNat = d.I.toNat + 1 ∧
      ((stateOf (exec (.ldBV 0) d)).setPc 0xFFE).mem = (stateOf (exec (.ldBV 0) d)).mem ∧
      ((stateOf (exec (.ldBV 0) d)).setPc 0xFFE).fault = none ∧
      ((stateOf (exec (.ldBV 0) d)).setPc 0xFFE).waiting = false) := by decide
theorem test_witness_SkipOnKey :
    0xF < ((State.reset.setV 0 0x10).getV 0).toNat ∧ ((State.reset.setV 0 0x0F).getV 0).toNat = (0xF : KeyIx).val ∧
    (State.reset.getV 0).toNat = (0 : KeyIx).val := by decide

/-- A running block whose word at `pc` decodes, with each kind of script. -/
theorem test_witness_StepRunsDecodedInstruction :
    let s := start 0x8014
    let t : State := { s with script := [.tick keysUp 7, .load [1]] }
    (s.fault = none ∧ s.waiting = false ∧ s.pc.toNat ≤ 0xFFE ∧
      decodeWord (s.wordAt s.pc.toNat) = .ok (.addReg 0 1) ∧ s.script = []) ∧
    (t.fault = none ∧ t.waiting = false ∧ t.pc.toNat ≤ 0xFFE ∧
      decodeWord (t.wordAt t.pc.toNat) = .ok (.addReg 0 1) ∧ t.script = .tick keysUp 7 :: [.load [1]]) := by decide
theorem test_witness_halted : halted.fault ≠ none := by decide

/-- A halted block with a tick and a load to come: one step has no load among its transactions, two have one. -/
theorem test_witness_HaltedForGood :
    let s : State := { halted with script := [.tick keysUp 0, .load [0x12]] }
    s.fault ≠ none ∧ (∀ c ∈ s.script.take 1, c.isTick = true) ∧
    afterLoads s.mem (s.script.take 1) = [] ∧ afterLoads s.mem (s.script.take 2) = [(0x200, 0x12)] := by decide
theorem test_witness_WaitingTick :
    waitingState.fault = none ∧ waitingState.waiting = true ∧ (∀ j : KeyIx, keysUp[j.val] = false) ∧
    ((keysDown [3, 8])[(3 : KeyIx).val] = true ∧ ∀ j : KeyIx, j < 3 → (keysDown [3, 8])[j.val] = false) ∧
    ((keysDown [0xF])[(0xF : KeyIx).val] = true ∧ ∀ j : KeyIx, j < 0xF → (keysDown [0xF])[j.val] = false) := by decide
theorem test_witness_WaitEndsAtFirstPress :
    let s : State := { waitingState with script := [.tick keysUp 0, .tick keysUp 1, .tick (keysDown [6]) 2] }
    s.fault = none ∧ s.waiting = true ∧
    s.script = ([0, 1].map fun r => HostCall.tick (Vector.replicate 16 false) r) ++ [.tick (keysDown [6]) 2] ∧
    (keysDown [6])[(6 : KeyIx).val] = true ∧ ∀ j : KeyIx, j < 6 → (keysDown [6])[j.val] = false := by decide

/-- One state for each clause: a word that writes no timer, and FX15, FX18 and FX07. -/
theorem test_witness_TimersDecayOnExecutingTick :
    (State.reset.fault = none ∧ State.reset.waiting = false ∧
      decodeWord (State.reset.wordAt State.reset.pc.toNat) = .error (.group0 0x00)) ∧
    decodeWord ((start 0xF015).wordAt (start 0xF015).pc.toNat) = .ok (.ldDtV 0) ∧
    decodeWord ((start 0xF018).wordAt (start 0xF018).pc.toNat) = .ok (.ldStV 0) ∧
    decodeWord ((start 0xF207).wordAt (start 0xF207).pc.toNat) = .ok (.ldVDt 2) ∧
    (start 0xF015).pc.toNat ≤ 0xFFE ∧ (start 0xF015).fault = none ∧ (start 0xF015).waiting = false := by decide
theorem test_witness_FetchReadsWordOrFaults :
    (State.reset.setPc 0xFFE).pc.toNat ≤ 0xFFE ∧ (State.reset.setPc 0xFFF).pc.toNat = 0xFFF ∧
    0xFFF < (State.reset.setPc 0x1000).pc.toNat ∧ (State.reset.setPc 0x1000).fault = none ∧
    (State.reset.setPc 0x1000).waiting = false := by decide
theorem test_witness_DecodeThenExecuteOrFault :
    State.reset.fault = none ∧ State.reset.waiting = false ∧ State.reset.pc.toNat ≤ 0xFFE ∧
    decodeWord (State.reset.wordAt State.reset.pc.toNat) = .error (.group0 0x00) ∧
    decodeWord ((start 0x00E0).wordAt (start 0x00E0).pc.toNat) = .ok .cls := by decide

/-- A running block whose tick raises a fault, one whose tick draws, and a waiting one. -/
theorem test_witness_FaultsArePrecise_FaultPriority_Changed :
    State.reset.fault = none ∧ halted.fault = some ⟨.illegalInstruction 0, 0x200⟩ ∧
    (start 0x00E0).fault = none ∧ (one (start 0x00E0)).changed = true ∧
    waitingState.fault = none ∧ waitingState.waiting = true := by decide
theorem test_witness_PcConvention :
    State.reset.fault = none ∧ (stateOf (exec .ret State.reset)).fault ≠ none ∧
    (stateOf (exec (.jp 0x234) State.reset)).fault = none := by decide
theorem test_witness_RegistersWrittenOnlyBy :
    exec (.ldImm 0 5) State.reset = .next (stateOf (exec (.ldImm 0 5) State.reset)) ∧
    (stateOf (exec (.ldImm 0 5) State.reset)).getV 0 ≠ State.reset.getV 0 := ⟨rfl, by decide⟩
theorem test_witness_OtherStateWrittenOnlyBy :
    (stateOf (exec (.call 0x300) State.reset)).stack ≠ State.reset.stack ∧
    (stateOf (exec (.call 0x300) State.reset)).sp ≠ State.reset.sp ∧
    (stateOf (exec (.ldDtV 0) (State.reset.setV 0 3))).DT ≠ (State.reset.setV 0 3).DT ∧
    (stateOf (exec (.ldStV 0) (State.reset.setV 0 3))).ST ≠ (State.reset.setV 0 3).ST ∧
    (stateOf (exec .cls State.reset)).changed ≠ State.reset.changed ∧
    (stateOf (exec (.ldVK 3) State.reset)).waiting ≠ State.reset.waiting ∧
    (stateOf (exec (.ldMemV 0) ((State.reset.setV 0 3).setI 0x300))).mem ≠ State.reset.mem := by decide

/-- The last byte that a load writes is data byte 3583, at 0xFFF. -/
theorem test_witness_LoadWritesProgram :
    0x200 + (⟨3583, by decide⟩ : Fin 3584).val ≤ 0xFFF ∧ 0x1FF < 0x200 ∧ 0xFFF < 0x1000 := by decide
theorem test_witness_StepIsOneHostTransaction :
    ({ State.reset with script := [.load [0x60, 0x05]] } : State).script = .load [0x60, 0x05] :: [] ∧
    State.reset.script = [] ∧
    ({ State.reset with script := [.tick keysUp 0] } : State).script = .tick keysUp 0 :: [] := by decide
theorem test_witness_EveryStepKeepsInv : waitingState.Inv ∧ step waitingState = .next (stateOf (step waitingState)) :=
  ⟨⟨by decide, by decide, by decide, (fun _ h => by cases h), fun _ => rfl⟩, rfl⟩

end Sys2Proof.Tests
end

/-! ### When a tick's changed flag is true (10_state.md R25) -/

namespace Sys2Proof.Machine

/-- The instructions that write the framebuffer and `changed`: CLS (41_display.md R78) and DRW (R79). -/
def isClearOrDraw (i : Instr) : Prop := i = .cls ∨ ∃ x y n, i = .drw x y n

@[simp] theorem State.wordAt_latch (s : State) (k : Keypad) (a : Nat) : (s.latch k).wordAt a = s.wordAt a := rfl
@[simp] theorem State.wordAt_decayTimers (s : State) (a : Nat) : s.decayTimers.wordAt a = s.wordAt a := rfl

@[simp] theorem State.scanKeys_changed (s : State) : s.scanKeys.changed = s.changed := by
  rcases s.scanKeys_cases with ⟨_, e⟩ | ⟨_, _, _, e⟩ <;> simp [e]

/-- Every instruction but CLS and DRW leaves `changed` as it was, its fault included. -/
theorem exec_keeps_changed (s : State) {i : Instr} (hi : ¬ isClearOrDraw i) :
    ∃ t, exec i s = .next t ∧ t.changed = s.changed := by
  cases i with
  | cls => exact absurd (.inl rfl) hi
  | drw x y n => exact absurd (.inr ⟨x, y, n, rfl⟩) hi
  | ret => rcases exec_ret_cases s with ⟨_, e⟩ | ⟨_, _, e⟩ <;> exact ⟨_, e, rfl⟩
  | call nnn => rcases exec_call_cases s nnn with ⟨_, e⟩ | ⟨_, e⟩ <;> exact ⟨_, e, rfl⟩
  | skp x => rcases exec_skp_cases s x with ⟨_, e⟩ | ⟨_, _, e⟩ <;> exact ⟨_, e, rfl⟩
  | sknp x => rcases exec_sknp_cases s x with ⟨_, e⟩ | ⟨_, _, e⟩ <;> exact ⟨_, e, rfl⟩
  | ldBV x => rcases exec_ldBV_cases s x with ⟨_, e⟩ | ⟨_, e⟩ <;> exact ⟨_, e, rfl⟩
  | ldMemV x => rcases exec_ldMemV_cases s x with ⟨_, e⟩ | ⟨_, e⟩ <;> exact ⟨_, e, rfl⟩
  | ldVMem x => rcases exec_ldVMem_cases s x with ⟨_, e⟩ | ⟨_, e⟩ <;> exact ⟨_, e, by simp⟩
  | _ => exact ⟨_, rfl, rfl⟩

/-- From a state whose `changed` is clear, an instruction sets it exactly when it is a clear or a draw that completes;
a draw that faults leaves it clear (40_cycle.md R75). -/
theorem exec_changed_iff {s : State} (i : Instr) (hf : s.fault = none) (hc : s.changed = false) :
    ∃ t, exec i s = .next t ∧ (t.changed = true ↔ t.fault = none ∧ isClearOrDraw i) := by
  by_cases hi : isClearOrDraw i
  · rcases hi with rfl | ⟨x, y, n, rfl⟩
    · exact ⟨_, rfl, by simp [hf, isClearOrDraw]⟩
    · rcases exec_drw_cases s x y n with ⟨_, _, e⟩ | ⟨_, _, _, e⟩
      · exact ⟨_, e, by simp [hc]⟩
      · exact ⟨_, e, by simp [hf, isClearOrDraw]⟩
  · obtain ⟨t, e, ht⟩ := exec_keeps_changed s hi
    exact ⟨t, e, by simp [ht, hc, hi]⟩

/-- The same of fetching and executing: neither a fetch fault nor an illegal word sets `changed`. -/
theorem State.fetchExecute_changed_iff {s : State} (rnd : Byte) (hf : s.fault = none) (hc : s.changed = false) :
    ∃ t, s.fetchExecute rnd = .next t ∧
      (t.changed = true ↔ t.fault = none ∧ s.pc.toNat ≤ 0xFFE ∧
        ∃ i, decodeWord (s.wordAt s.pc.toNat) = .ok i ∧ isClearOrDraw i) := by
  rcases s.fetchExecute_cases rnd with ⟨_, e⟩ | ⟨_, _, e⟩ | ⟨hpc, i, hd, e⟩
  · exact ⟨_, e, by simp [hc]⟩
  · exact ⟨_, e, by simp [hc]⟩
  · obtain ⟨t, ht, hiff⟩ := exec_changed_iff (s := { s with rnd := rnd }) i hf hc
    exact ⟨t, e.trans ht, by simp [hiff, hpc, hd]⟩

/-- Settles O51: a waiting tick clears `changed` and scans keys; an executing one clears it and runs one instruction. -/
theorem changedExactlyAfterClearOrDraw : Obligations.ChangedExactlyAfterClearOrDraw := by
  intro keypad rnd s hf
  rcases tick_cases keypad rnd s with ⟨h, _⟩ | ⟨_, hw, e⟩ | ⟨_, hw, e⟩
  · exact absurd hf h
  · exact ⟨_, e, rfl, by simp [hw]⟩
  · obtain ⟨t, ht, hiff⟩ :=
      State.fetchExecute_changed_iff (s := (s.latch keypad).decayTimers) rnd (by simpa using hf) (by simp)
    refine ⟨t, e.trans ht, rfl, hiff.trans ?_⟩
    simp [hw, isClearOrDraw, and_or_left, exists_or]

end Sys2Proof.Machine

/-! ### Memory at construction (20_memory.md R34 to R36) -/

namespace Sys2Proof.Machine

/-- At construction no cell is listed, so every address reads as its construction byte. -/
@[simp] theorem State.readByte_reset (a : Nat) : State.reset.readByte a = resetByte a := rfl

/-- What holds of the default and of every element of a list holds wherever `getD` looks. -/
theorem getD_of_forall_mem {α : Type} {P : α → Prop} {l : List α} {d : α} (hd : P d) (hl : ∀ x ∈ l, P x) (i : Nat) :
    P (l.getD i d) := by
  rcases Nat.lt_or_ge i l.length with h | h
  · rw [List.getD_eq_getElem l d h]
    exact hl _ (List.getElem_mem h)
  · rwa [List.getD_eq_default l d h]

/-- Every glyph is 4 pixels wide: the low nibble of each of its rows is zero (R35). -/
theorem font_lowNibble : ∀ glyph ∈ font, ∀ b ∈ glyph, b.toNat % 16 = 0 := by decide

/-- The construction byte of every address has a zero low nibble: it is a row of a glyph, or zero past the atlas. -/
theorem resetByte_lowNibble (a : Nat) : (resetByte a).toNat % 16 = 0 :=
  have glyphRows := getD_of_forall_mem (P := fun glyph : List Byte => ∀ b ∈ glyph, b.toNat % 16 = 0)
    (by simp) font_lowNibble ((a - Config.fontBase) / Config.glyphStride)
  getD_of_forall_mem (P := fun b : Byte => b.toNat % 16 = 0) rfl glyphRows _

/-- Settles O2: the two halves of the table are read off the construction bytes at 80 fixed addresses; the low-nibble
clause is a fact about every address. -/
theorem fontAtlasBytes : Obligations.FontAtlasBytes := by
  refine ⟨by decide, by decide, fun a => ?_⟩
  rw [State.readByte_reset]
  exact resetByte_lowNibble a

end Sys2Proof.Machine

/-! ### The two levels of the dispatch, with the fields as numbers (30_encoding.md R52 to R57) -/

namespace Sys2Proof

/-- A word of group 0x0 is decoded by that group's second level (R53); likewise 0x8, 0xE and 0xF (R55 to R57). -/
theorem decodeWord_group0 {w : Word} (h : (fieldG w).val = 0x0) : decodeWord w = decodeGroup0 w := by
  simp only [decodeWord, h]

theorem decodeWord_group8 {w : Word} (h : (fieldG w).val = 0x8) : decodeWord w = decodeGroup8 w := by
  simp only [decodeWord, h]

theorem decodeWord_groupE {w : Word} (h : (fieldG w).val = 0xE) : decodeWord w = decodeGroupE w := by
  simp only [decodeWord, h]

theorem decodeWord_groupF {w : Word} (h : (fieldG w).val = 0xF) : decodeWord w = decodeGroupF w := by
  simp only [decodeWord, h]

/-- The sub-opcode that group 0x8 is rejected with, as a number (R55, R60). -/
theorem extractLsb'_lowNibble (w : Word) : w.extractLsb' 0 4 = BitVec.ofNat 4 w.toNat := rfl

/-- The lowest nibble of a word of format `F_XYN` is `N` (R50). -/
theorem wordXYN_lowNibble (g : BitVec 4) (x y : RegIx) (n : Fin 16) : (wordXYN g x y n).toNat % 16 = n.val := by
  rw [← fieldN_val, fieldN_wordXYN]

/-- Settles O6: the encoder's `N` is the format's; read back as the fields of R49, the numbers of the statement are the
operands of the group's one arm of `decodeWord`. -/
theorem singleInstructionGroups : Obligations.SingleInstructionGroups := by
  refine ⟨fun x y => ⟨wordXYN_lowNibble 0x5 x y 0, wordXYN_lowNibble 0x9 x y 0⟩, fun w => ?_⟩
  simp only [← fieldG_val, ← fieldX_eq, ← fieldY_eq, ← fieldN_eq, ← fieldNN_eq, ← fieldNNN_eq]
  and_intros <;> (intro hg; simp only [decodeWord, hg])

/-- Settles O7: read back as the fields of R49, the table of each group is the definition of its second level. -/
theorem secondLevelDispatch : Obligations.SecondLevelDispatch := by
  refine ⟨by decide, by decide, fun w => ?_⟩
  simp only [← fieldG_val, ← fieldX_eq, ← fieldY_eq, ← fieldN_val, ← fieldNN_toNat, ← fieldNN_eq,
    ← extractLsb'_lowNibble]
  exact ⟨decodeWord_group0, decodeWord_group8, decodeWord_groupE, decodeWord_groupF⟩

end Sys2Proof

/-! ### What a tick does in each kind of state (40_cycle.md R66, R69 to R72) -/

namespace Sys2Proof.Machine

variable {s : State} (keypad : Keypad) (rnd : Byte)

theorem tick_halted (hf : s.fault ≠ none) : tick keypad rnd s = .next s := by
  simpa [hf] using tick_cases keypad rnd s

theorem tick_waiting (hf : s.fault = none) (hw : s.waiting = true) :
    tick keypad rnd s = .next (s.latch keypad).scanKeys := by
  simpa [hf, hw] using tick_cases keypad rnd s

theorem tick_executing (hf : s.fault = none) (hw : s.waiting = false) :
    tick keypad rnd s = (s.latch keypad).decayTimers.fetchExecute rnd := by
  simpa [hf, hw] using tick_cases keypad rnd s

theorem State.scanKeys_idle (h : ∀ j : KeyIx, s.key[j.val] = false) : s.scanKeys = s := by
  simp only [State.scanKeys, firstPressed_eq_none.mpr h]

theorem State.scanKeys_pressed {k : KeyIx} (hk : s.key[k.val] = true)
    (hlow : ∀ j : KeyIx, j < k → s.key[j.val] = false) :
    s.scanKeys = { s.setV s.waitReg (BitVec.ofNat 8 k.val) with waiting := false } := by
  simp only [State.scanKeys, firstPressed_eq_some.mpr ⟨hk, hlow⟩]

/-- With two bytes at `pc`, an executing tick executes the word they make. -/
theorem tick_executes_wordAt_pc (hf : s.fault = none) (hw : s.waiting = false) (hpc : s.pc.toNat ≤ 0xFFE) :
    tick keypad rnd s = (s.latch keypad).decayTimers.executeWord (s.wordAt s.pc.toNat) rnd :=
  (tick_executing keypad rnd hf hw).trans (inRange_inside _ _ (.inr (Nat.add_le_add_right hpc 2)))

/-- With a byte of the two outside memory, it raises MemoryOutOfRange with the first address outside. -/
theorem tick_raises_fetch_fault (hf : s.fault = none) (hw : s.waiting = false) (hpc : 0xFFF ≤ s.pc.toNat) :
    tick keypad rnd s =
      .next ((s.latch keypad).decayTimers.raise (.memoryOutOfRange (max s.pc.toNat 0x1000))) :=
  (tick_executing keypad rnd hf hw).trans
    (inRange_outside _ _ ⟨Nat.two_pos, Nat.lt_of_succ_le (Nat.add_le_add_right hpc 2)⟩)

theorem State.executeWord_illegal {w : Word} {r : Reject} (h : decodeWord w = .error r) :
    s.executeWord w rnd = .next (s.raise (.illegalInstruction w)) := by
  simp only [State.executeWord, h, takeFault_eq]

theorem State.executeWord_legal {w : Word} {i : Instr} (h : decodeWord w = .ok i) :
    s.executeWord w rnd = exec i { s with rnd := rnd } := by
  simp only [State.executeWord, h]

/-- The word at an address as a number: the first byte is the high one (20_memory.md R38). -/
theorem State.wordAt_eq_ofNat (s : State) (a : Nat) :
    s.wordAt a = BitVec.ofNat 16 ((s.readByte a).toNat * 256 + (s.readByte (a + 1)).toNat) := by
  have hword : (s.wordAt a).toNat = (s.readByte a).toNat * 256 + (s.readByte (a + 1)).toNat := append_toNat _ _
  rw [← hword, BitVec.ofNat_toNat, BitVec.setWidth_eq]

end Sys2Proof.Machine

/-! ### The tick of a halted and of a waiting block (40_cycle.md R66, R69) -/

namespace Sys2Proof.Machine

/-- Settles O42: a halted tick returns the state itself. -/
theorem haltedTickChangesNothing : Obligations.HaltedTickChangesNothing := by
  intro keypad rnd s hf
  exact ⟨s, tick_halted keypad rnd hf, rfl, rfl⟩

/-- Settles O44: the scan either finds no key and does nothing, or finds the lowest and writes its index, below 256. -/
theorem waitingTick : Obligations.WaitingTick := by
  intro keypad rnd s hf hw
  have htick := tick_waiting keypad rnd hf hw
  refine ⟨fun hidle => ?_, fun k hk hlow => ?_⟩
  · rw [State.scanKeys_idle (s := s.latch keypad) hidle] at htick
    exact ⟨_, htick, rfl, fun _ => rfl⟩
  · rw [State.scanKeys_pressed (s := s.latch keypad) hk hlow] at htick
    refine ⟨_, htick, ?_, fun r hr => ?_, rfl, fun _ => rfl⟩
    · have hwritten := (s.latch keypad).getV_setV_same s.waitReg (BitVec.ofNat 8 k.val)
      exact (congrArg BitVec.toNat hwritten).trans (Nat.mod_eq_of_lt (by omega))
    · exact (s.latch keypad).getV_setV_other _ (by simpa using hr)

end Sys2Proof.Machine

/-! ### Fetch, decode, execute (40_cycle.md R71, R72) -/

namespace Sys2Proof.Machine

/-- Settles O47: of `pc` and 0x1000 the larger is the first address outside memory, which is `pc + 1` at 0xFFF. -/
theorem fetchReadsWordOrFaults : Obligations.FetchReadsWordOrFaults := by
  intro keypad rnd s hf hw
  refine ⟨fun hpc => ?_, fun hpc => ?_, fun hpc => ?_⟩
  · rw [← State.wordAt_eq_ofNat]
    exact tick_executes_wordAt_pc keypad rnd hf hw hpc
  · have htick := tick_raises_fetch_fault keypad rnd hf hw hpc.le
    rw [Nat.max_eq_left hpc] at htick
    exact ⟨_, htick, rfl, fun _ => rfl⟩
  · have htick := tick_raises_fetch_fault keypad rnd hf hw hpc.ge
    rw [show max s.pc.toNat 0x1000 = s.pc.toNat + 1 by omega] at htick
    exact ⟨_, htick, rfl, fun _ => rfl⟩

/-- Settles O48: both clauses start from the word that the tick fetches. -/
theorem decodeThenExecuteOrFault : Obligations.DecodeThenExecuteOrFault := by
  intro keypad rnd s hf hw hpc
  have htick := tick_executes_wordAt_pc keypad rnd hf hw hpc
  refine ⟨fun r hr => ?_, fun i hi => ?_⟩
  · exact ⟨_, _, htick.trans (State.executeWord_illegal rnd hr), rfl, rfl, rfl, fun _ => rfl⟩
  · exact htick.trans (State.executeWord_legal rnd hi)

end Sys2Proof.Machine

/-! ### The timers (40_cycle.md R70) -/

namespace Sys2Proof.Machine

/-- DT is written by LD DT, Vx alone and ST by LD ST, Vx alone (45_keypad_timers.md R113, R114). -/
theorem exec_keeps_timers (i : Instr) (s : State) :
    ∃ t, exec i s = .next t ∧ ((∀ x, i ≠ .ldDtV x) → t.DT = s.DT) ∧ ((∀ x, i ≠ .ldStV x) → t.ST = s.ST) := by
  cases i with
  | ldDtV x => exact ⟨_, rfl, fun h => absurd rfl (h x), fun _ => rfl⟩
  | ldStV x => exact ⟨_, rfl, fun _ => rfl, fun h => absurd rfl (h x)⟩
  | ret => rcases exec_ret_cases s with ⟨_, e⟩ | ⟨_, _, e⟩ <;> exact ⟨_, e, fun _ => rfl, fun _ => rfl⟩
  | call nnn => rcases exec_call_cases s nnn with ⟨_, e⟩ | ⟨_, e⟩ <;> exact ⟨_, e, fun _ => rfl, fun _ => rfl⟩
  | drw x y n =>
    rcases exec_drw_cases s x y n with ⟨_, _, e⟩ | ⟨_, _, _, e⟩ <;> exact ⟨_, e, fun _ => rfl, fun _ => rfl⟩
  | skp x => rcases exec_skp_cases s x with ⟨_, e⟩ | ⟨_, _, e⟩ <;> exact ⟨_, e, fun _ => rfl, fun _ => rfl⟩
  | sknp x => rcases exec_sknp_cases s x with ⟨_, e⟩ | ⟨_, _, e⟩ <;> exact ⟨_, e, fun _ => rfl, fun _ => rfl⟩
  | ldBV x => rcases exec_ldBV_cases s x with ⟨_, e⟩ | ⟨_, e⟩ <;> exact ⟨_, e, fun _ => rfl, fun _ => rfl⟩
  | ldMemV x => rcases exec_ldMemV_cases s x with ⟨_, e⟩ | ⟨_, e⟩ <;> exact ⟨_, e, fun _ => rfl, fun _ => rfl⟩
  | ldVMem x => rcases exec_ldVMem_cases s x with ⟨_, e⟩ | ⟨_, e⟩ <;> exact ⟨_, e, by simp, by simp⟩
  | _ => exact ⟨_, rfl, fun _ => rfl, fun _ => rfl⟩

/-- The states the three timer instructions end in (45_keypad_timers.md R111, R113, R114). -/
theorem exec_ldVDt {x : RegIx} {s t : State} (h : exec (.ldVDt x) s = .next t) : t = (s.setV x s.DT).advance 2 :=
  (Host.Outcome.next.inj h).symm

theorem exec_ldDtV {x : RegIx} {s t : State} (h : exec (.ldDtV x) s = .next t) :
    t = { s with DT := s.getV x }.advance 2 :=
  (Host.Outcome.next.inj h).symm

theorem exec_ldStV {x : RegIx} {s t : State} (h : exec (.ldStV x) s = .next t) :
    t = { s with ST := s.getV x }.advance 2 :=
  (Host.Outcome.next.inj h).symm

/-- Settles O46: the decay comes first; a fault of the fetch or of decoding leaves the decayed timers, and so does
every instruction that does not write them. -/
theorem timersDecayOnExecutingTick : Obligations.TimersDecayOnExecutingTick := by
  intro keypad rnd s hf hw
  have htick := tick_executing keypad rnd hf hw
  rcases (s.latch keypad).decayTimers.fetchExecute_cases rnd with ⟨hpc, e⟩ | ⟨_, ⟨r, hr⟩, e⟩ | ⟨_, i, hi, e⟩
  · have hout : ¬ s.pc.toNat ≤ 0xFFE := Nat.not_le.mpr hpc
    exact ⟨_, htick.trans e, by simp [decay_toNat, hout]⟩
  · have hillegal : decodeWord (s.wordAt s.pc.toNat) = .error r := hr
    exact ⟨_, htick.trans e, by simp [decay_toNat, hillegal]⟩
  · have hlegal : decodeWord (s.wordAt s.pc.toNat) = .ok i := hi
    obtain ⟨t, ht, hDT, hST⟩ := exec_keeps_timers i { (s.latch keypad).decayTimers with rnd := rnd }
    simp only [hlegal, ne_eq, Except.ok.injEq]
    refine ⟨t, (htick.trans e).trans ht, fun h => ?_, fun h => ?_, ?_, ?_, ?_⟩
    · rw [hDT h, State.decayTimers_DT, State.latch_DT, decay_toNat]
    · rw [hST h, State.decayTimers_ST, State.latch_ST, decay_toNat]
    · rintro x - rfl
      rw [exec_ldDtV ht]; rfl
    · rintro x - rfl
      rw [exec_ldStV ht]; rfl
    · rintro x - rfl
      rw [exec_ldVDt ht, State.getV_advance, State.getV_setV_same, State.decayTimers_DT, State.latch_DT, decay_toNat]

end Sys2Proof.Machine

/-! ### How instructions leave `pc` (40_cycle.md R73) -/

namespace Sys2Proof.Machine

/-- R73's shape: the outcome is a next state that has `pc` as it was if it holds a fault, and else satisfies `P`. -/
def leavesPc (s : State) (r : Result) (P : State → Prop) : Prop :=
  ∃ t, r = .next t ∧ (t.fault ≠ none → t.pc = s.pc) ∧ (t.fault = none → P t)

variable {s t : State} {r : Result} {P : State → Prop}

theorem leavesPc_of_raise {c : FaultCause} (e : r = .next (s.raise c)) : leavesPc s r P :=
  ⟨_, e, fun _ => rfl, fun h => by cases h⟩

theorem leavesPc_of_next (e : r = .next t) (hf : t.fault = none) (hP : P t) : leavesPc s r P :=
  ⟨t, e, fun h => absurd hf h, fun _ => hP⟩

/-- A skip advances `pc` by 4 or by 2. -/
theorem State.advance_skip_pc (s : State) (c : Bool) :
    (s.advance (if c then 4 else 2)).pc = s.pc + 2 ∨ (s.advance (if c then 4 else 2)).pc = s.pc + 4 := by
  cases c
  · exact .inl rfl
  · exact .inr rfl

/-- Settles O52: an instruction with a check of its own raises or completes; every other completes. -/
theorem pcConvention : Obligations.PcConvention := by
  intro i s hf
  cases i with
  | ret =>
    rcases exec_ret_cases s with ⟨_, e⟩ | ⟨hsp, h, e⟩
    · exact leavesPc_of_raise e
    · exact leavesPc_of_next e hf ⟨⟨s.sp.val - 1, h⟩, (Nat.sub_add_cancel hsp).symm, rfl⟩
  | call nnn =>
    rcases exec_call_cases s nnn with ⟨_, e⟩ | ⟨_, e⟩
    · exact leavesPc_of_raise e
    · exact leavesPc_of_next e hf (addrWord_toNat nnn)
  | jp nnn => exact leavesPc_of_next rfl hf (addrWord_toNat nnn)
  | jpV0 nnn => exact leavesPc_of_next rfl hf (jumpTarget_toNat nnn _)
  | seImm | sneImm | seReg | sneReg => exact leavesPc_of_next rfl hf (s.advance_skip_pc _)
  | skp x =>
    rcases exec_skp_cases s x with ⟨_, e⟩ | ⟨_, _, e⟩
    · exact leavesPc_of_raise e
    · exact leavesPc_of_next e hf (s.advance_skip_pc _)
  | sknp x =>
    rcases exec_sknp_cases s x with ⟨_, e⟩ | ⟨_, _, e⟩
    · exact leavesPc_of_raise e
    · exact leavesPc_of_next e hf (s.advance_skip_pc _)
  | drw x y n =>
    rcases exec_drw_cases s x y n with ⟨_, _, e⟩ | ⟨_, _, _, e⟩
    · exact leavesPc_of_raise e
    · exact leavesPc_of_next e hf rfl
  | ldBV x =>
    rcases exec_ldBV_cases s x with ⟨_, e⟩ | ⟨_, e⟩
    · exact leavesPc_of_raise e
    · exact leavesPc_of_next e hf rfl
  | ldMemV x =>
    rcases exec_ldMemV_cases s x with ⟨_, e⟩ | ⟨_, e⟩
    · exact leavesPc_of_raise e
    · exact leavesPc_of_next e hf rfl
  | ldVMem x =>
    rcases exec_ldVMem_cases s x with ⟨_, e⟩ | ⟨_, e⟩
    · exact leavesPc_of_raise e
    · exact leavesPc_of_next e (by simpa using hf) (by simp)
  | _ => exact leavesPc_of_next rfl hf rfl

end Sys2Proof.Machine

/-! ### Clearing the screen (41_display.md R78) -/

namespace Sys2Proof.Machine

/-- R78's one path: CLS has no check, so it completes from every state. -/
theorem exec_cls (s : State) :
    exec .cls s = .next ({ s with fb := clearFramebuffer, changed := true }.advance 2) := rfl

/-- Settles O10: the state CLS ends in holds the clear framebuffer, whose every pixel is off, and differs from `s` in
`fb`, `changed` and `pc` alone. -/
theorem clsClearsScreen : Obligations.ClsClearsScreen := by
  intro s
  refine ⟨_, exec_cls s, fun r c => ?pixelsOff, rfl, State.advance_pc .., ?frame, fun _ => ?memory⟩
  case pixelsOff => rw [State.advance_fb, getPixel_clear]
  case frame => rfl
  case memory => rfl

end Sys2Proof.Machine

/-! ### Calls and returns (42_control_flow.md R80, R82) -/

namespace Sys2Proof.Machine

theorem onlyRaised_raise (s : State) (c : FaultCause) : onlyRaised c s (s.raise c) :=
  ⟨rfl, fun _ => rfl⟩

/-- What a push leaves in the stack: the return address on top, every other entry as it was (10_state.md R19). -/
theorem stack_set_top {stack : Vector Word Config.stackDepth} {sp : Nat} (hsp : sp < Config.stackDepth) (ret : Word)
    {k : Fin 16} (hk : sp = k.val) :
    (stack.set sp ret)[k.val] = ret ∧ ∀ j : Fin 16, j ≠ k → (stack.set sp ret)[j.val] = stack[j.val] := by
  subst hk
  exact ⟨Vector.getElem_set_self hsp, fun j hj => Vector.getElem_set_ne hsp j.isLt fun h => hj (Fin.ext h.symm)⟩

/-- Settles O13: an empty stack takes the fault; with `k + 1` addresses in use the popped entry is entry `k`. -/
theorem retPops : Obligations.RetPops := by
  intro s
  rcases exec_ret_cases s with ⟨hempty, e⟩ | ⟨hused, _, e⟩
  · exact ⟨fun _ => ⟨_, e, onlyRaised_raise s _⟩, fun k hk => by omega⟩
  · refine ⟨fun hempty => by omega, fun k hk => ?_⟩
    have htop : s.sp.val - 1 = k.val := by omega
    refine ⟨_, e, htop, ?popped, rfl, fun _ => rfl⟩
    case popped => simp only [State.setPc_pc, htop]

/-- Settles O15: a full stack takes the fault; with `k` addresses in use the return address goes to entry `k`. -/
theorem callPushes : Obligations.CallPushes := by
  intro nnn s
  rcases exec_call_cases s nnn with ⟨hfull, e⟩ | ⟨hfree, e⟩
  · exact ⟨fun _ => ⟨_, e, onlyRaised_raise s _⟩, fun k hk => by omega⟩
  · refine ⟨fun hfull => by omega, fun k hk => ?_⟩
    obtain ⟨hret, hothers⟩ := stack_set_top (stack := s.stack) hfree (s.pc + 2) hk
    exact ⟨_, e, hret, hothers, congrArg (· + 1) hk, addrWord_toNat nnn, rfl, fun _ => rfl⟩

end Sys2Proof.Machine

/-! ### Jumps and skips (42_control_flow.md R81, R83 to R87) -/

namespace Sys2Proof.Machine

variable (s : State)

/-! The six instructions that write `pc` alone have one path each. -/

theorem exec_jp (nnn : Addr) : exec (.jp nnn) s = .next (s.setPc (addrWord nnn)) := rfl

theorem exec_jpV0 (nnn : Addr) : exec (.jpV0 nnn) s = .next (s.setPc (jumpTarget nnn (s.getV 0))) := rfl

theorem exec_seImm (x : RegIx) (nn : Byte) : exec (.seImm x nn) s = .next (s.skipIf (s.getV x == nn)) := rfl

theorem exec_sneImm (x : RegIx) (nn : Byte) : exec (.sneImm x nn) s = .next (s.skipIf (s.getV x != nn)) := rfl

theorem exec_seReg (x y : RegIx) : exec (.seReg x y) s = .next (s.skipIf (s.getV x == s.getV y)) := rfl

theorem exec_sneReg (x y : RegIx) : exec (.sneReg x y) s = .next (s.skipIf (s.getV x != s.getV y)) := rfl

theorem onlyPc_setPc (target : Word) : onlyPc s (s.setPc target) := ⟨rfl, fun _ => rfl⟩

theorem onlyPc_skipIf (c : Bool) : onlyPc s (s.skipIf c) := ⟨rfl, fun _ => rfl⟩

/-- A skip on equality goes on by 4 when the bytes are equal and by 2 when not (40_cycle.md R73). -/
theorem State.skipIf_beq_pc (a b : Byte) : (s.skipIf (a == b)).pc = if a = b then s.pc + 4 else s.pc + 2 := by
  by_cases h : a = b <;> simp [h]

/-- A skip on inequality is the other way round. -/
theorem State.skipIf_bne_pc (a b : Byte) : (s.skipIf (a != b)).pc = if a = b then s.pc + 2 else s.pc + 4 := by
  by_cases h : a = b <;> simp [h]

end Sys2Proof.Machine

namespace Sys2Proof.Machine

/-- Settles O14: the target is the zero-extended address. -/
theorem jpSetsPc : Obligations.JpSetsPc := fun nnn s =>
  ⟨_, exec_jp s nnn, addrWord_toNat nnn, onlyPc_setPc s _⟩

/-- Settles O18: an address and a byte add up below 2^16, so the 16-bit sum is the integer sum. -/
theorem jpV0AddsRegisterZero : Obligations.JpV0AddsRegisterZero := fun nnn s =>
  ⟨_, exec_jpV0 s nnn, jumpTarget_toNat nnn (s.getV 0), onlyPc_setPc s _⟩

/-- Settles O16: SE skips on equality with the immediate, SNE on inequality. -/
theorem skipOnImmediate : Obligations.SkipOnImmediate := fun x nn s =>
  ⟨⟨_, exec_seImm s x nn, onlyPc_skipIf s _, s.skipIf_beq_pc _ _⟩,
    ⟨_, exec_sneImm s x nn, onlyPc_skipIf s _, s.skipIf_bne_pc _ _⟩⟩

/-- Settles O17: SE skips on equality of the two registers, SNE on inequality. -/
theorem skipOnRegisters : Obligations.SkipOnRegisters := fun x y s =>
  ⟨⟨_, exec_seReg s x y, onlyPc_skipIf s _, s.skipIf_beq_pc _ _⟩,
    ⟨_, exec_sneReg s x y, onlyPc_skipIf s _, s.skipIf_bne_pc _ _⟩⟩

end Sys2Proof.Machine

/-! ### The ALU instructions that write one register (43_alu.md R91 to R96) -/

namespace Sys2Proof.Machine

variable (s : State)

/-! No ALU instruction faults, so each has one path: the write to the destination, then `advance(2)`. -/

theorem exec_ldImm (x : RegIx) (nn : Byte) : exec (.ldImm x nn) s = .next ((s.setV x nn).advance 2) := rfl

theorem exec_addImm (x : RegIx) (nn : Byte) :
    exec (.addImm x nn) s = .next ((s.setV x (add8 (s.getV x) nn)).advance 2) := rfl

theorem exec_ldReg (x y : RegIx) : exec (.ldReg x y) s = .next ((s.setV x (s.getV y)).advance 2) := rfl

theorem exec_or (x y : RegIx) : exec (.or x y) s = .next ((s.setV x (s.getV x ||| s.getV y)).advance 2) := rfl

theorem exec_and (x y : RegIx) : exec (.and x y) s = .next ((s.setV x (s.getV x &&& s.getV y)).advance 2) := rfl

theorem exec_xor (x y : RegIx) : exec (.xor x y) s = .next ((s.setV x (s.getV x ^^^ s.getV y)).advance 2) := rfl

/-- The destination holds the value written. -/
theorem State.getV_setV_advance_same (x : RegIx) (b : Byte) (k : Word) : ((s.setV x b).advance k).getV x = b := by
  rw [State.getV_advance, State.getV_setV_same]

end Sys2Proof.Machine

namespace Sys2Proof.Machine

/-- Settles O20: the byte written is the immediate. -/
theorem ldImmWritesImmediate : Obligations.LdImmWritesImmediate := fun x nn s =>
  ⟨_, exec_ldImm s x nn, s.getV_setV_advance_same x nn 2, rfl, onlyRegsAndPc_setV s x _ 2⟩

/-- Settles O21: the byte written is the low 8 bits of the sum, and the frame lists the destination alone, so no flag
is written. -/
theorem addImmWritesSum : Obligations.AddImmWritesSum := by
  intro x nn s
  refine ⟨_, exec_addImm s x nn, ?sum, rfl, onlyRegsAndPc_setV s x _ 2⟩
  case sum => rw [State.getV_setV_advance_same, add8_toNat]

/-- Settles O22: the byte written is the source register's. -/
theorem ldRegCopies : Obligations.LdRegCopies := fun x y s =>
  ⟨_, exec_ldReg s x y, s.getV_setV_advance_same x _ 2, rfl, onlyRegsAndPc_setV s x _ 2⟩

/-- Settles O23: bit `k` of each bitwise operation is the operation on the operands' bits `k`. -/
theorem logicBitByBit : Obligations.LogicBitByBit := by
  intro x y s
  refine ⟨⟨_, exec_or s x y, rfl, onlyRegsAndPc_setV s x _ 2, fun k => ?or⟩,
    ⟨_, exec_and s x y, rfl, onlyRegsAndPc_setV s x _ 2, fun k => ?and⟩,
    ⟨_, exec_xor s x y, rfl, onlyRegsAndPc_setV s x _ 2, fun k => ?xor⟩⟩
  case or => rw [State.getV_setV_advance_same, BitVec.getLsbD_or]
  case and => rw [State.getV_setV_advance_same, BitVec.getLsbD_and]
  case xor => rw [State.getV_setV_advance_same, BitVec.getLsbD_xor]

end Sys2Proof.Machine

/-! ### The ALU instructions that write a result and a flag (43_alu.md R89, R90, R97, R98, R100) -/

namespace Sys2Proof.Machine

variable (s : State)

/-! The operands of each are read before the write back. -/

theorem exec_addReg (x y : RegIx) : exec (.addReg x y) s =
    .next (s.writeBack x (add8 (s.getV x) (s.getV y)) (carryFlag (s.getV x) (s.getV y))) := rfl

theorem exec_sub (x y : RegIx) : exec (.sub x y) s =
    .next (s.writeBack x (sub8 (s.getV x) (s.getV y)) (subFlag Config.subFlagPolarity (s.getV x) (s.getV y))) := rfl

theorem exec_subn (x y : RegIx) : exec (.subn x y) s =
    .next (s.writeBack x (sub8 (s.getV y) (s.getV x)) (subFlag Config.subFlagPolarity (s.getV y) (s.getV x))) := rfl

/-- The flag register holds the flag, the destination included: the flag is written last (R90). -/
theorem State.getV_writeBack_flag (x : RegIx) (result flag : Byte) : (s.writeBack x result flag).getV 0xF = flag := by
  rw [State.getV_writeBack, if_pos rfl]

/-- Any other destination holds the result. -/
theorem State.getV_writeBack_result {x : RegIx} (hx : x ≠ 0xF) (result flag : Byte) :
    (s.writeBack x result flag).getV x = result := by
  rw [State.getV_writeBack, if_neg hx, if_pos rfl]

theorem carryFlag_eq (a b : Byte) : carryFlag a b = if 0xFF < a.toNat + b.toNat then 1 else 0 := by
  simp only [carryFlag, flagOf, decide_eq_true_eq]

theorem subFlag_borrow (a b : Byte) : subFlag .borrow a b = if a.toNat < b.toNat then 1 else 0 := by
  simp only [subFlag, flagOf, decide_eq_true_eq]

theorem subFlag_notBorrow (a b : Byte) : subFlag .notBorrow a b = if a.toNat ≥ b.toNat then 1 else 0 := by
  simp only [subFlag, flagOf, decide_eq_true_eq, ge_iff_le]

theorem subFlag_greater (a b : Byte) : subFlag .greater a b = if a.toNat > b.toNat then 1 else 0 := by
  simp only [subFlag, flagOf, decide_eq_true_eq, gt_iff_lt]

end Sys2Proof.Machine

namespace Sys2Proof.Machine

/-- Settles O24: the sum and the carry come from the operands read first; the flag overwrites a sum in `V[0xF]`. -/
theorem addRegWritesSumAndCarry : Obligations.AddRegWritesSumAndCarry := by
  intro x y s
  refine ⟨_, exec_addReg s x y, fun hx => ?sum, ?carry, rfl, onlyRegsAndPc_writeBack s x _ _⟩
  case sum => rw [State.getV_writeBack_result s hx, add8_toNat]
  case carry => rw [State.getV_writeBack_flag, carryFlag_eq]

/-- Settles O25: the polarity is opaque, so the flag is compared for each of its three values; SUBN is SUB's write back
with the operands exchanged. -/
theorem subWritesDifferenceAndFlag : Obligations.SubWritesDifferenceAndFlag := by
  intro x y s subflag
  have hflag (a b : Byte) : subFlag Config.subFlagPolarity a b = subflag a.toNat b.toNat := by
    simp only [subflag]
    cases Config.subFlagPolarity with
    | borrow => exact subFlag_borrow a b
    | notBorrow => exact subFlag_notBorrow a b
    | greater => exact subFlag_greater a b
  refine ⟨⟨_, exec_sub s x y, fun hx => ?sub, ?subFlag, rfl, onlyRegsAndPc_writeBack s x _ _⟩,
    ⟨_, exec_subn s x y, fun hx => ?subn, ?subnFlag, rfl, onlyRegsAndPc_writeBack s x _ _⟩⟩
  case sub => rw [State.getV_writeBack_result s hx, sub8_toNat]
  case subFlag => rw [State.getV_writeBack_flag, hflag]
  case subn => rw [State.getV_writeBack_result s hx, sub8_toNat]
  case subnFlag => rw [State.getV_writeBack_flag, hflag]

end Sys2Proof.Machine

/-! ### The index register (44_index_memory.md R103 to R105) -/

namespace Sys2Proof.Machine

variable (s : State)

/-! The three instructions that write `I` have one path each: no check, no flag. -/

theorem exec_ldI (nnn : Addr) : exec (.ldI nnn) s = .next ((s.setI (addrWord nnn)).advance 2) := rfl

theorem exec_addIV (x : RegIx) :
    exec (.addIV x) s = .next ((s.setI (s.I + (s.getV x).setWidth 16)).advance 2) := rfl

theorem exec_ldFV (x : RegIx) : exec (.ldFV x) s = .next ((s.setI (glyphAddress (s.getV x))).advance 2) := rfl

theorem onlyIndexAndPc_setI (a k : Word) : onlyIndexAndPc s ((s.setI a).advance k) := ⟨rfl, fun _ => rfl⟩

/-- `trunc_16(I + zext_16(V[X]))` as a number (R104). -/
theorem add_setWidth_toNat (a : Word) (b : Byte) : (a + b.setWidth 16).toNat = (a.toNat + b.toNat) % 65536 := by
  simp only [BitVec.toNat_add, BitVec.toNat_setWidth]
  omega

/-- Row `r` of glyph `d` stands `r` bytes after the glyph's first (20_memory.md R34, R35). -/
theorem resetByte_glyphRow (d : Nat) {r : Nat} (hr : r < 5) :
    resetByte (5 * d + r) = (font.getD d []).getD r 0 := by
  have hdiv : (5 * d + r) / 5 = d := by omega
  have hmod : (5 * d + r) % 5 = r := by omega
  simp only [resetByte, Config.fontBase, Config.glyphStride, Nat.sub_zero, hdiv, hmod]

end Sys2Proof.Machine

namespace Sys2Proof.Machine

/-- Settles O28: the index written is the zero-extended address. -/
theorem ldISetsIndex : Obligations.LdISetsIndex := fun nnn s =>
  ⟨_, exec_ldI s nnn, addrWord_toNat nnn, rfl, onlyIndexAndPc_setI s _ 2⟩

/-- Settles O29: the index written is the 16-bit sum; the frame lists `I` and `pc` alone, so no flag and no fault. -/
theorem addIndexWrapsAt16Bits : Obligations.AddIndexWrapsAt16Bits := fun x s =>
  ⟨_, exec_addIV s x, add_setWidth_toNat s.I (s.getV x), rfl, onlyIndexAndPc_setI s _ 2⟩

/-- Settles O30: the five addresses from the glyph's lie below 80, where the font stands if memory still holds it. -/
theorem ldFPointsAtGlyph : Obligations.LdFPointsAtGlyph := by
  intro x s
  have haddr := glyphAddress_toNat (s.getV x)
  refine ⟨_, exec_ldFV s x, haddr, rfl, onlyIndexAndPc_setI s _ 2, fun hfont r => ?glyph⟩
  case glyph =>
    rw [State.advance_I, State.setI_I, haddr, State.readByte_advance, State.readByte_setI, hfont _ (by omega),
      resetByte_glyphRow _ r.isLt]

end Sys2Proof.Machine

/-! ### Stores from registers to memory (44_index_memory.md R106, R107) -/

namespace Sys2Proof.Machine

variable (s : State)

/-- Byte `k` of a store stands `k` addresses after its base (20_memory.md R39). -/
theorem State.readByte_storeBytes_add (base : Nat) {bs : List Byte} {k : Nat} (hk : k < bs.length) :
    (s.storeBytes base bs).readByte (base + k) = bs[k] := by
  rw [State.readByte_storeBytes, dif_pos (by omega)]
  simp only [Nat.add_sub_cancel_left]

/-- A store of `n` bytes changes those bytes and, with the advance, `pc`. -/
theorem onlyBytesAndPc_storeBytes (base : Nat) {bs : List Byte} {n : Nat} (hn : bs.length = n) (k : Word) :
    onlyBytesAndPc base n s ((s.storeBytes base bs).advance k) :=
  ⟨rfl, fun _ ha => s.readByte_storeBytes_outside (hn ▸ ha)⟩

@[simp] theorem length_decimalDigits (v : Byte) : (decimalDigits v).length = 3 := rfl

/-- The digits as numbers: each is at most the value, so it is kept as a byte. -/
theorem decimalDigits_map_toNat (v : Byte) :
    (decimalDigits v).map BitVec.toNat = [v.toNat / 100, v.toNat / 10 % 10, v.toNat % 10] := by
  simp only [decimalDigits, List.map_cons, List.map_nil, BitVec.toNat_ofNat, List.cons.injEq, and_true]
  omega

/-- The stored digits read back: hundreds, tens, units by rising address. -/
theorem State.readByte_storeBytes_decimalDigits (base : Nat) (v : Byte) {k : Nat} (hk : k < 3) :
    ((s.storeBytes base (decimalDigits v)).readByte (base + k)).toNat =
      [v.toNat / 100, v.toNat / 10 % 10, v.toNat % 10][k] := by
  rw [s.readByte_storeBytes_add base (bs := decimalDigits v) hk]
  simp only [← decimalDigits_map_toNat]
  exact (List.getElem_map BitVec.toNat).symm

/-- The stored registers read back: `V[r]` at `r` addresses from the base. -/
theorem State.readByte_storeBytes_firstRegs (base : Nat) {n : Nat} {r : RegIx} (hr : r.val < n) :
    (s.storeBytes base (s.firstRegs n)).readByte (base + r.val) = s.getV r := by
  rw [s.readByte_storeBytes_add base (by rwa [State.length_firstRegs]), State.getElem_firstRegs, regOf_val]

end Sys2Proof.Machine

namespace Sys2Proof.Machine

/-- Settles O31: past 0xFFF the store faults; within memory its bytes 0, 1 and 2 are the three digits. -/
theorem ldBStoresDigits : Obligations.LdBStoresDigits := by
  intro x s
  rcases exec_ldBV_cases s x with ⟨hout, e⟩ | ⟨hin, e⟩
  · exact ⟨fun _ => ⟨_, e, onlyRaised_raise s _⟩, fun hin => by omega⟩
  · have hdigit {k : Nat} (hk : k < 3) := s.readByte_storeBytes_decimalDigits s.I.toNat (s.getV x) hk
    refine ⟨fun hout => by omega, fun _ =>
      ⟨_, e, ?hundreds, ?tens, ?units, rfl, onlyBytesAndPc_storeBytes s _ (length_decimalDigits _) 2⟩⟩
    case hundreds => exact hdigit (k := 0) (by decide)
    case tens => exact hdigit (k := 1) (by decide)
    case units => exact hdigit (k := 2) (by decide)

/-- Settles O32: past 0xFFF the store faults; within memory its byte `r` is `V[r]`, for `r` up to X. -/
theorem registerDump : Obligations.RegisterDump := by
  intro x s
  rcases exec_ldMemV_cases s x with ⟨hout, e⟩ | ⟨hin, e⟩
  · exact ⟨fun _ => ⟨_, e, onlyRaised_raise s _⟩, fun hin => by omega⟩
  · refine ⟨fun hout => by omega, fun _ =>
      ⟨_, e, fun r hr => ?stored, rfl, onlyBytesAndPc_storeBytes s _ (s.length_firstRegs _) 2⟩⟩
    case stored => rw [State.readByte_advance, s.readByte_storeBytes_firstRegs _ (Nat.lt_succ_of_le hr)]

end Sys2Proof.Machine

/-! ### Loading registers from memory (44_index_memory.md R108) -/

namespace Sys2Proof.Machine

/-- Settles O33: past 0xFFF the load faults; within memory it writes the registers up to X, each from its own byte. -/
theorem registerLoad : Obligations.RegisterLoad := by
  intro x s
  rcases exec_ldVMem_cases s x with ⟨hout, e⟩ | ⟨hin, e⟩
  · exact ⟨fun _ => ⟨_, e, onlyRaised_raise s _⟩, fun hin => by omega⟩
  · have hregs (r : RegIx) := s.getV_loadRegs s.I.toNat (x.val + 1) x.isLt r
    refine ⟨fun hout => by omega, fun _ => ⟨_, e, fun r hr => ?loaded, fun r hr => ?kept, ?pc, ?frame, fun a => ?memory⟩⟩
    case loaded => rw [State.getV_advance, hregs, if_pos (Nat.lt_succ_of_le hr)]
    case kept => rw [State.getV_advance, hregs, if_neg (Nat.not_lt.mpr hr)]
    case pc => rw [State.advance_pc, State.loadRegs_pc]
    case frame => rw [State.advance, State.loadRegs_eq]
    case memory => rw [State.readByte_advance, State.readByte_loadRegs]

end Sys2Proof.Machine

/-! ### Keypad and timers (45_keypad_timers.md R109 to R111, R113, R114) -/

namespace Sys2Proof.Machine

variable (s : State)

/-! The three timer instructions have one path each. -/

theorem exec_ldVDt_eq (x : RegIx) : exec (.ldVDt x) s = .next ((s.setV x s.DT).advance 2) := rfl

theorem exec_ldDtV_eq (x : RegIx) : exec (.ldDtV x) s = .next ({ s with DT := s.getV x }.advance 2) := rfl

theorem exec_ldStV_eq (x : RegIx) : exec (.ldStV x) s = .next ({ s with ST := s.getV x }.advance 2) := rfl

/-- The status output is on just while the sound timer runs (10_state.md R21). -/
theorem State.soundActive_iff : s.soundActive = true ↔ s.ST ≠ 0 := bne_iff_ne

/-- A skip goes on by 4 when it is taken and by 2 when not (40_cycle.md R73). -/
theorem State.skipIf_pc (c : Bool) : (s.skipIf c).pc = if c = true then s.pc + 4 else s.pc + 2 := by
  cases c <;> rfl

/-- A skip on the negated condition is the other way round. -/
theorem State.skipIf_not_pc (c : Bool) : (s.skipIf (!c)).pc = if c = true then s.pc + 2 else s.pc + 4 := by
  cases c <;> rfl

/-- What SKP and SKNP share: of their two cases, a value above 0xF, which names no key, can only be the fault, and a
value that names key `k` can only be the skip, on the condition `c k` of that key. -/
theorem keySkip_of_cases {r : Result} {v : Byte} {c : KeyIx → Bool}
    (hcases : (0xF < v.toNat ∧ r = .next (s.raise (.keyOutOfRange v))) ∨
      ∃ k : KeyIx, v.toNat = k.val ∧ r = .next (s.skipIf (c k))) :
    (0xF < v.toNat → ∃ t, r = .next t ∧ onlyRaised (.keyOutOfRange v) s t) ∧
    ∀ k : KeyIx, v.toNat = k.val → r = .next (s.skipIf (c k)) := by
  rcases hcases with ⟨hout, e⟩ | ⟨j, hj, e⟩
  · exact ⟨fun _ => ⟨_, e, onlyRaised_raise s _⟩, fun k hk => by omega⟩
  · refine ⟨fun hout => by omega, fun k hk => ?skips⟩
    case skips =>
      have hjk : j = k := Fin.ext (hj.symm.trans hk)
      rw [e, hjk]

end Sys2Proof.Machine

namespace Sys2Proof.Machine

/-- Settles O36: SKP skips on the latched level of the key that V[X] names, SKNP on its negation. -/
theorem skipOnKey : Obligations.SkipOnKey := by
  intro x s
  obtain ⟨skpRaises, skpSkips⟩ := keySkip_of_cases s (exec_skp_cases s x)
  obtain ⟨sknpRaises, sknpSkips⟩ := keySkip_of_cases s (exec_sknp_cases s x)
  exact ⟨fun hout => ⟨skpRaises hout, sknpRaises hout⟩, fun k hk =>
    ⟨⟨_, skpSkips k hk, onlyPc_skipIf s _, s.skipIf_pc _⟩, ⟨_, sknpSkips k hk, onlyPc_skipIf s _, s.skipIf_not_pc _⟩⟩⟩

/-- Settles O37: the byte written is the delay timer, and the frame lists the destination alone. -/
theorem ldVDtReadsTimer : Obligations.LdVDtReadsTimer := fun x s =>
  ⟨_, exec_ldVDt_eq s x, s.getV_setV_advance_same x s.DT 2, rfl, onlyRegsAndPc_setV s x _ 2⟩

/-- Settles O39: each write reaches its own timer alone, and `sound_active` reads the ST that LD ST, Vx leaves. -/
theorem timersAreWritten : Obligations.TimersAreWritten := by
  intro x s
  refine ⟨⟨_, exec_ldDtV_eq s x, rfl, rfl, rfl, fun _ => rfl⟩,
    ⟨_, exec_ldStV_eq s x, rfl, ?soundActive, rfl, rfl, fun _ => rfl⟩⟩
  case soundActive => exact State.soundActive_iff _

end Sys2Proof.Machine

/-! ### A tick that records a fault (60_exceptions.md R117, R118) -/

namespace Sys2Proof.Machine

/-- The scan of a waiting tick raises nothing (60_exceptions.md R116). -/
@[simp] theorem State.scanKeys_fault (s : State) : s.scanKeys.fault = s.fault := by
  rcases s.scanKeys_cases with ⟨_, e⟩ | ⟨_, _, _, e⟩ <;> simp [e]

/-- Fetching and executing either raises a fault in the state it started from, where only the random byte may differ,
or completes with none recorded: every check comes before the first write. -/
theorem State.fetchExecute_raises_or_completes {s : State} (rnd : Byte) (hf : s.fault = none) :
    (∃ b c, s.fetchExecute rnd = .next ({ s with rnd := b }.raise c)) ∨
    ∃ t, s.fetchExecute rnd = .next t ∧ t.fault = none := by
  rcases s.fetchExecute_cases rnd with ⟨_, e⟩ | ⟨_, _, e⟩ | ⟨_, i, _, e⟩
  · exact .inl ⟨s.rnd, _, e⟩
  · exact .inl ⟨s.rnd, _, e⟩
  · rcases exec_fault_cases { s with rnd := rnd } i hf with ⟨c, _, hraise⟩ | ⟨_, t, hnext, ht⟩
    · exact .inl ⟨rnd, c, e.trans hraise⟩
    · exact .inr ⟨t, e.trans hnext, ht⟩

/-- A running block's tick either raises a fault in the latched and decayed state or records none. -/
theorem tick_raises_or_completes {s : State} (keypad : Keypad) (rnd : Byte) (hf : s.fault = none) :
    (∃ b c, tick keypad rnd s = .next ({ (s.latch keypad).decayTimers with rnd := b }.raise c)) ∨
    ∃ t, tick keypad rnd s = .next t ∧ t.fault = none := by
  rcases tick_cases keypad rnd s with ⟨hhalted, _⟩ | ⟨_, _, e⟩ | ⟨_, _, e⟩
  · exact absurd hf hhalted
  · exact .inr ⟨_, e, by simpa using hf⟩
  · rw [e]
    exact State.fetchExecute_raises_or_completes rnd (by simpa using hf)

/-- Settles O49: the state that takes the fault differs from the one before the tick by the latch, the decay and the
random byte alone; a tick that completes has no record. -/
theorem faultsArePrecise : Obligations.FaultsArePrecise := by
  intro keypad rnd s hf
  rcases tick_raises_or_completes keypad rnd hf with ⟨b, c, e⟩ | ⟨t, e, ht⟩
  · refine ⟨_, e, fun f hrecord => ?_⟩
    obtain rfl : ⟨c, s.pc⟩ = f := Option.some.inj hrecord
    simp [decay_toNat]
  · exact ⟨t, e, fun f hrecord => by simp [ht] at hrecord⟩

end Sys2Proof.Machine

/-! ### `Load` (70_reset_and_hazards.md R132) -/

namespace Sys2Proof.Machine

/-- A data byte whose address is within memory stands at that address. -/
theorem State.readByte_load_written (s : State) (data : List Byte) (k : Fin data.length)
    (hmem : 0x200 + k.val ≤ 0xFFF) : (s.load data).readByte (0x200 + k.val) = data[k.val] := by
  have hwritten : 0x200 ≤ 0x200 + k.val ∧ 0x200 + k.val < 0x200 + data.length ∧ 0x200 + k.val ≤ 0xFFF := by omega
  simp only [State.readByte_load, dif_pos hwritten, Nat.add_sub_cancel_left]

/-- An address below the program's base, beyond the data or past memory's end is not written. -/
theorem State.readByte_load_kept (s : State) (data : List Byte) {a : Nat}
    (hkept : a < 0x200 ∨ 0x200 + data.length ≤ a ∨ 0xFFF < a) : (s.load data).readByte a = s.readByte a := by
  rw [State.readByte_load, dif_neg (by omega)]

/-- Settles O57: the loop writes the addresses from 0x200 that are both in the data's range and in memory, and `Load`
updates the memory field alone. -/
theorem loadWritesProgram : Obligations.LoadWritesProgram := fun data s =>
  ⟨s.readByte_load_written data, fun _ => s.readByte_load_kept data, rfl⟩

end Sys2Proof.Machine

/-! ### Decoding an encoded instruction (30_encoding.md R49, R50, R59) -/

namespace Sys2Proof

/-- Settles O3: every instruction's word has the group of its row, so `decodeWord` takes that group's arm, and the
fields it reads back are the operands. -/
theorem decodeOfEncode : Obligations.DecodeOfEncode := by
  intro i
  cases i with
  | cls | ret => decide
  | jp nnn | call nnn | ldI nnn | jpV0 nnn =>
    simp [encode, decodeWord, fieldG_wordNNN, fieldNNN_wordNNN]
  | seImm x nn | sneImm x nn | ldImm x nn | addImm x nn | rnd x nn =>
    simp [encode, decodeWord, fieldG_wordXNN, fieldX_wordXNN, fieldNN_wordXNN]
  | seReg x y | sneReg x y | drw x y n =>
    simp [encode, decodeWord, fieldG_wordXYN, fieldX_wordXYN, fieldY_wordXYN, fieldN_wordXYN]
  | ldReg x y | or x y | and x y | xor x y | addReg x y | sub x y | shr x y | subn x y | shl x y =>
    rw [encode, decodeWord_group8 (fieldG_wordXYN ..)]
    simp [decodeGroup8, fieldX_wordXYN, fieldY_wordXYN, fieldN_wordXYN]
  | skp x | sknp x =>
    rw [encode, decodeWord_groupE (fieldG_wordXNN ..)]
    simp [decodeGroupE, fieldX_wordXNN, fieldNN_wordXNN]
  | ldVDt x | ldVK x | ldDtV x | ldStV x | addIV x | ldFV x | ldBV x | ldMemV x | ldVMem x =>
    rw [encode, decodeWord_groupF (fieldG_wordXNN ..)]
    simp [decodeGroupF, fieldX_wordXNN, fieldNN_wordXNN]

end Sys2Proof

/-! ### Encoding a decoded word (30_encoding.md R53, R54, R63) -/

namespace Sys2Proof

/-! A word of group `g` is the word of each format from its own fields. -/

section
variable {w : Word} {g : BitVec 4} (hg : (fieldG w).val = g.toNat)
include hg

theorem extractLsb'_of_group : w.extractLsb' 12 4 = g := BitVec.eq_of_toNat_eq hg

theorem wordNNN_of_group : wordNNN g (fieldNNN w) = w := by
  rw [← extractLsb'_of_group hg, wordNNN_fields]

theorem wordXNN_of_group : wordXNN g (fieldX w) (fieldNN w) = w := by
  rw [← extractLsb'_of_group hg, wordXNN_fields]

theorem wordXYN_of_group : wordXYN g (fieldX w) (fieldY w) (fieldN w) = w := by
  rw [← extractLsb'_of_group hg, wordXYN_fields]

/-- The same where the low byte, or the lowest nibble, is the sub-opcode that selects the instruction. -/
theorem wordXNN_of_lowByte {nn : Byte} (hnn : (fieldNN w).toNat = nn.toNat) : wordXNN g (fieldX w) nn = w := by
  rw [← BitVec.eq_of_toNat_eq hnn, wordXNN_of_group hg]

theorem wordXYN_of_lowNibble {n : Fin 16} (hn : (fieldN w).val = n.val) : wordXYN g (fieldX w) (fieldY w) n = w := by
  rw [← Fin.ext hn, wordXYN_of_group hg]

end

/-! The bits that `decodedBits` clears: none, `X` of CLS and RET (R53), `N` of groups 0x5 and 0x9 (R54). -/

theorem and_FFFF (w : Word) : w &&& 0xFFFF = w := BitVec.and_allOnes

theorem wordXYN_and_FFF0 (g : BitVec 4) (x y : RegIx) (n : Fin 16) : wordXYN g x y n &&& 0xFFF0 = wordXYN g x y 0 := by
  refine (BitVec.and_append (x₁ := g ++ (BitVec.ofFin x : BitVec 4) ++ (BitVec.ofFin y : BitVec 4)) (x₂ := 0xFFF)
    (y₁ := (BitVec.ofFin n : BitVec 4)) (y₂ := 0#4)).trans ?_
  rw [BitVec.and_zero, show (0xFFF : BitVec 12) = BitVec.allOnes 12 from rfl, BitVec.and_allOnes]
  rfl

/-- Where every bit of a word selects something, the word itself is encoded. -/
theorem encode_eq_and_decodedBits {w : Word} {i : Instr} (hbits : i.decodedBits = 0xFFFF) (h : encode i = w) :
    encode i = w &&& i.decodedBits := by
  rw [hbits, and_FFFF, h]

/-! ### The second level of each group -/

theorem encode_of_decodeGroup0 {w : Word} {i : Instr} (hg : (fieldG w).val = 0x0) (h : decodeGroup0 w = .ok i) :
    encode i = w &&& i.decodedBits := by
  have hclear (nn : Byte) (hnn : (fieldNN w).toNat = nn.toNat) : wordXNN 0x0 0 nn = w &&& 0xF0FF := by
    rw [← wordXNN_of_lowByte (g := 0x0) hg hnn, Laws.wordXNN_and_F0FF]
  unfold decodeGroup0 at h
  split at h <;> cases h
  · next hnn => exact hclear 0xE0 hnn
  · next hnn => exact hclear 0xEE hnn

theorem encode_of_decodeGroup8 {w : Word} {i : Instr} (hg : (fieldG w).val = 0x8) (h : decodeGroup8 w = .ok i) :
    encode i = w &&& i.decodedBits := by
  unfold decodeGroup8 at h
  split at h <;> cases h <;> exact encode_eq_and_decodedBits rfl (wordXYN_of_lowNibble hg ‹_›)

theorem encode_of_decodeGroupE {w : Word} {i : Instr} (hg : (fieldG w).val = 0xE) (h : decodeGroupE w = .ok i) :
    encode i = w &&& i.decodedBits := by
  unfold decodeGroupE at h
  split at h <;> cases h <;> exact encode_eq_and_decodedBits rfl (wordXNN_of_lowByte hg ‹_›)

theorem encode_of_decodeGroupF {w : Word} {i : Instr} (hg : (fieldG w).val = 0xF) (h : decodeGroupF w = .ok i) :
    encode i = w &&& i.decodedBits := by
  unfold decodeGroupF at h
  split at h <;> cases h <;> exact encode_eq_and_decodedBits rfl (wordXNN_of_lowByte hg ‹_›)

/-- Settles O4: in each group the encoder puts the decoded fields back together; only CLS, RET and groups 0x5 and 0x9
leave out a field, the one that selects nothing. Case `h_k` is the decoder's arm of group `k - 1`. -/
theorem encodeOfDecode : Obligations.EncodeOfDecode := by
  intro w i h
  unfold decodeWord at h
  split at h
  case h_1 hg => exact encode_of_decodeGroup0 hg h
  case h_9 hg => exact encode_of_decodeGroup8 hg h
  case h_15 hg => exact encode_of_decodeGroupE hg h
  case h_16 =>
    have hg : (fieldG w).val = 0xF := by grind
    exact encode_of_decodeGroupF hg h
  case h_6 hg | h_10 hg => cases h; exact (wordXYN_and_FFF0 ..).symm.trans (by rw [wordXYN_of_group hg]; rfl)
  case h_14 hg => cases h; exact encode_eq_and_decodedBits rfl (wordXYN_of_group hg)
  case h_2 hg | h_3 hg | h_11 hg | h_12 hg => cases h; exact encode_eq_and_decodedBits rfl (wordNNN_of_group hg)
  case h_4 hg | h_5 hg | h_7 hg | h_8 hg | h_13 hg => cases h; exact encode_eq_and_decodedBits rfl (wordXNN_of_group hg)

end Sys2Proof

/-! ### The row of the opcode map a word matches (30_encoding.md R59) -/

namespace Sys2Proof

/-- The family OpcodeRow, together: every instruction's word fits the instruction's row. -/
theorem row_matchesWord_encode (i : Instr) : Laws.OpcodeRow.Statement i :=
  i.rec Laws.OpcodeRow.cls Laws.OpcodeRow.ret Laws.OpcodeRow.jp Laws.OpcodeRow.call Laws.OpcodeRow.seImm
    Laws.OpcodeRow.sneImm Laws.OpcodeRow.seReg Laws.OpcodeRow.ldImm Laws.OpcodeRow.addImm Laws.OpcodeRow.ldReg
    Laws.OpcodeRow.or Laws.OpcodeRow.and Laws.OpcodeRow.xor Laws.OpcodeRow.addReg Laws.OpcodeRow.sub
    Laws.OpcodeRow.shr Laws.OpcodeRow.subn Laws.OpcodeRow.shl Laws.OpcodeRow.sneReg Laws.OpcodeRow.ldI
    Laws.OpcodeRow.jpV0 Laws.OpcodeRow.rnd Laws.OpcodeRow.drw Laws.OpcodeRow.skp Laws.OpcodeRow.sknp
    Laws.OpcodeRow.ldVDt Laws.OpcodeRow.ldVK Laws.OpcodeRow.ldDtV Laws.OpcodeRow.ldStV Laws.OpcodeRow.addIV
    Laws.OpcodeRow.ldFV Laws.OpcodeRow.ldBV Laws.OpcodeRow.ldMemV Laws.OpcodeRow.ldVMem

/-- A row's mask looks at no bit that selects nothing. -/
theorem decodedBits_and_rowMask (i : Instr) : i.decodedBits &&& i.row.mask = i.row.mask := by
  cases i with
  | cls | ret => rfl
  | seReg | sneReg => exact show (0xFFF0 : Word) &&& 0xF000 = 0xF000 from rfl
  | _ => exact (BitVec.and_comm ..).trans (and_FFFF _)

/-- So the bits that `decodedBits` clears do not count for the row. -/
theorem row_matchesWord_and_decodedBits (i : Instr) (w : Word) :
    i.row.matchesWord (w &&& i.decodedBits) = i.row.matchesWord w := by
  simp only [OpcodeRow.matchesWord, BitVec.and_assoc, decodedBits_and_rowMask]

/-! Each mask of R59 keeps the fields that the decoder dispatches on, so a word that fits a row has the row's. -/

section
variable {w p : Word}

theorem fieldG_of_and_F000 (h : w &&& 0xF000 = p) : (fieldG w).val = p.toNat / 4096 := by
  rw [← h, ← wordNNN_fields w, Laws.wordNNN_and_F000, ← fieldG_val, fieldG_wordNNN, fieldG_wordNNN]

theorem fields_of_and_F0FF (h : w &&& 0xF0FF = p) :
    (fieldG w).val = p.toNat / 4096 ∧ (fieldNN w).toNat = p.toNat % 256 := by
  rw [← h, ← wordXNN_fields w, Laws.wordXNN_and_F0FF, ← fieldG_val, ← fieldNN_toNat]
  simp only [fieldG_wordXNN, fieldNN_wordXNN, and_self]

theorem fields_of_and_F00F (h : w &&& 0xF00F = p) :
    (fieldG w).val = p.toNat / 4096 ∧ (fieldN w).val = p.toNat % 16 := by
  rw [← h, ← wordXYN_fields w, Laws.wordXYN_and_F00F, ← fieldG_val, ← fieldN_val]
  simp only [fieldG_wordXYN, fieldN_wordXYN, and_self]

end

/-! A word that fits a row decodes to an instruction of it: the rows in the order of the table's four parts. -/

section
variable (w : Word)

theorem decodeWord_of_low_row :
    ∀ r ∈ opcodeRowsLow, r.matchesWord w = true → ∃ i, decodeWord w = .ok i ∧ i.row = r := by
  simp only [opcodeRowsLow, List.forall_mem_cons, OpcodeRow.matchesWord, beq_iff_eq]
  refine ⟨fun h => ⟨.cls, ?cls, rfl⟩, fun h => ⟨.ret, ?ret, rfl⟩, fun h => ⟨.jp (fieldNNN w), ?_, rfl⟩,
    fun h => ⟨.call (fieldNNN w), ?_, rfl⟩, fun h => ⟨.seImm (fieldX w) (fieldNN w), ?_, rfl⟩,
    fun h => ⟨.sneImm (fieldX w) (fieldNN w), ?_, rfl⟩, fun h => ⟨.seReg (fieldX w) (fieldY w), ?_, rfl⟩,
    fun h => ⟨.ldImm (fieldX w) (fieldNN w), ?_, rfl⟩, fun h => ⟨.addImm (fieldX w) (fieldNN w), ?_, rfl⟩, by simp⟩
  case cls | ret => simp [decodeWord, decodeGroup0, fields_of_and_F0FF h]
  all_goals simp [decodeWord, fieldG_of_and_F000 h]

theorem decodeWord_of_alu_row :
    ∀ r ∈ opcodeRowsAlu, r.matchesWord w = true → ∃ i, decodeWord w = .ok i ∧ i.row = r := by
  simp only [opcodeRowsAlu, List.forall_mem_cons, OpcodeRow.matchesWord, beq_iff_eq]
  refine ⟨fun h => ⟨.ldReg (fieldX w) (fieldY w), ?_, rfl⟩, fun h => ⟨.or (fieldX w) (fieldY w), ?_, rfl⟩,
    fun h => ⟨.and (fieldX w) (fieldY w), ?_, rfl⟩, fun h => ⟨.xor (fieldX w) (fieldY w), ?_, rfl⟩,
    fun h => ⟨.addReg (fieldX w) (fieldY w), ?_, rfl⟩, fun h => ⟨.sub (fieldX w) (fieldY w), ?_, rfl⟩,
    fun h => ⟨.shr (fieldX w) (fieldY w), ?_, rfl⟩, fun h => ⟨.subn (fieldX w) (fieldY w), ?_, rfl⟩,
    fun h => ⟨.shl (fieldX w) (fieldY w), ?_, rfl⟩, by simp⟩
  all_goals simp [decodeWord, decodeGroup8, fields_of_and_F00F h]

theorem decodeWord_of_high_row :
    ∀ r ∈ opcodeRowsHigh, r.matchesWord w = true → ∃ i, decodeWord w = .ok i ∧ i.row = r := by
  simp only [opcodeRowsHigh, List.forall_mem_cons, OpcodeRow.matchesWord, beq_iff_eq]
  refine ⟨fun h => ⟨.sneReg (fieldX w) (fieldY w), ?_, rfl⟩, fun h => ⟨.ldI (fieldNNN w), ?_, rfl⟩,
    fun h => ⟨.jpV0 (fieldNNN w), ?_, rfl⟩, fun h => ⟨.rnd (fieldX w) (fieldNN w), ?_, rfl⟩,
    fun h => ⟨.drw (fieldX w) (fieldY w) (fieldN w), ?_, rfl⟩, fun h => ⟨.skp (fieldX w), ?skp, rfl⟩,
    fun h => ⟨.sknp (fieldX w), ?sknp, rfl⟩, by simp⟩
  case skp | sknp => simp [decodeWord, decodeGroupE, fields_of_and_F0FF h]
  all_goals simp [decodeWord, fieldG_of_and_F000 h]

theorem decodeWord_of_F_row :
    ∀ r ∈ opcodeRowsF, r.matchesWord w = true → ∃ i, decodeWord w = .ok i ∧ i.row = r := by
  simp only [opcodeRowsF, List.forall_mem_cons, OpcodeRow.matchesWord, beq_iff_eq]
  refine ⟨fun h => ⟨.ldVDt (fieldX w), ?_, rfl⟩, fun h => ⟨.ldVK (fieldX w), ?_, rfl⟩,
    fun h => ⟨.ldDtV (fieldX w), ?_, rfl⟩, fun h => ⟨.ldStV (fieldX w), ?_, rfl⟩,
    fun h => ⟨.addIV (fieldX w), ?_, rfl⟩, fun h => ⟨.ldFV (fieldX w), ?_, rfl⟩,
    fun h => ⟨.ldBV (fieldX w), ?_, rfl⟩, fun h => ⟨.ldMemV (fieldX w), ?_, rfl⟩,
    fun h => ⟨.ldVMem (fieldX w), ?_, rfl⟩, by simp⟩
  all_goals simp [decodeWord, decodeGroupF, fields_of_and_F0FF h]

end

/-- Settles O5: a decoded word encodes back to itself but for bits that no row's mask looks at, and the encoded word
fits the row; a word that fits a row has the group and sub-opcode of that row, which the decoder dispatches on. -/
theorem decodeFollowsOpcodeMap : Obligations.DecodeFollowsOpcodeMap := by
  intro w
  refine ⟨fun i hi => ?_, ?_⟩
  · rw [← row_matchesWord_and_decodedBits, ← encodeOfDecode w i hi]
    exact row_matchesWord_encode i
  · simp only [opcodeTable, List.forall_mem_append]
    exact ⟨⟨⟨decodeWord_of_low_row w, decodeWord_of_alu_row w⟩, decodeWord_of_high_row w⟩, decodeWord_of_F_row w⟩

end Sys2Proof

/-! ### The assembler (30_encoding.md R63, R64) -/

namespace Sys2Proof

/-- A line is well formed if its operands have the kinds of a form of R59's column, its numbers are in range and it
jumps by no register but `V0`. -/
theorem Line.wf_of_form {m : Mnemonic} {ops : List Operand} (hform : (m, ops.map Operand.kind) ∈ syntaxForms)
    (hrange : ops.all Operand.inRange = true) (hjump : Line.jumpRegisterIsV0 ⟨m, ops⟩ = true) :
    Line.wf ⟨m, ops⟩ = true := by
  simp only [Line.wf, List.contains_iff_mem.mpr hform, hrange, hjump, Bool.and_self]

theorem Line.form_of_wf {l : Line} (h : l.wf = true) :
    (l.mnemonic, l.operands.map Operand.kind) ∈ syntaxForms := by
  simp only [Line.wf, Bool.and_eq_true, List.contains_iff_mem] at h
  exact h.1.1

/-- A well-formed line that names `i` assembles to `i`'s word, which decodes to `i`. -/
theorem assembles_of_wf {l : Line} {i : Instr} (hwf : l.wf = true) (hi : l.instr = some i) :
    l.wf = true ∧ l.instr = some i ∧ assemble l = some (encode i) ∧ decodeWord (encode i) = .ok i :=
  ⟨hwf, hi, by rw [assemble, if_pos hwf, hi, Option.map_some], decodeOfEncode i⟩

/-! The operands of each kind: a keyword is the one of its kind, any other carries a number. -/

theorem Operand.kind_eq_keyword {o : Operand} :
    (o.kind = .i ↔ o = .i) ∧ (o.kind = .dt ↔ o = .dt) ∧ (o.kind = .st ↔ o = .st) ∧ (o.kind = .k ↔ o = .k) ∧
    (o.kind = .f ↔ o = .f) ∧ (o.kind = .b ↔ o = .b) ∧ (o.kind = .memI ↔ o = .memI) := by
  cases o <;> simp [Operand.kind]

theorem Operand.kind_eq_number {o : Operand} :
    (o.kind = .v ↔ ∃ n, o = .v n) ∧ (o.kind = .byte ↔ ∃ n, o = .byte n) ∧
    (o.kind = .addr ↔ ∃ n, o = .addr n) ∧ (o.kind = .nibble ↔ ∃ n, o = .nibble n) := by
  cases o <;> simp [Operand.kind]

/-- Every line of a form of R59's column names an instruction: the form's kinds determine its operands up to their
numbers, and for those operands `Line.instr` has an arm. -/
theorem Line.instr_of_form : ∀ form ∈ syntaxForms, ∀ ops : List Operand, ops.map Operand.kind = form.2 →
    ∃ i, Line.instr ⟨form.1, ops⟩ = some i := by
  simp only [syntaxForms, syntaxFormsLow, syntaxFormsAlu, syntaxFormsHigh, List.cons_append, List.nil_append,
    List.mem_cons, List.not_mem_nil, or_false, forall_eq_or_imp, forall_eq, List.map_eq_nil_iff, List.map_eq_cons_iff,
    Operand.kind_eq_number, Operand.kind_eq_keyword, forall_exists_index, and_imp]
  and_intros <;> (intros; subst_vars; exact ⟨_, rfl⟩)

/-- Settles O8: the kinds of each line of the column are listed, and the numbers written are read back; a well-formed
line has a listed form, so it names an instruction. -/
theorem assemblyRoundTrip : Obligations.AssemblyRoundTrip := by
  refine ⟨?forms, fun l => ⟨fun hwf => ?wellFormed, fun hwf => ?illFormed⟩⟩
  case forms =>
    intro x y n nn nnn asm
    have hasm {m : Mnemonic} {ops : List Operand} {i : Instr} (hform : (m, ops.map Operand.kind) ∈ syntaxForms)
        (hrange : ops.all Operand.inRange = true) (hjump : Line.jumpRegisterIsV0 ⟨m, ops⟩ = true)
        (hi : Line.instr ⟨m, ops⟩ = some i) : asm ⟨m, ops⟩ i :=
      assembles_of_wf (Line.wf_of_form hform hrange hjump) hi
    clear_value asm
    and_intros <;> refine hasm (by simp only [List.map_cons, List.map_nil, Operand.kind]; decide) ?_ rfl ?_
    all_goals simp [Operand.inRange, nn.isLt, nnn.isLt, Line.instr, BitVec.ofNat_toNat]
  case wellFormed =>
    obtain ⟨i, hi⟩ := Line.instr_of_form _ (Line.form_of_wf hwf) l.operands rfl
    obtain ⟨_, _, hasm, hdec⟩ := assembles_of_wf hwf hi
    exact ⟨i, encode i, hi, hasm, hdec⟩
  case illFormed => simp only [assemble, hwf, Bool.false_eq_true, if_false]

end Sys2Proof

/-! ### Which instruction writes which state (10_state.md R14 to R25, 20_memory.md R44) -/

namespace Sys2Proof.Machine

/-- `s` with the fields that `i` may write, its fault record included, taken from `t`. -/
def withWritesOf (i : Instr) (s t : State) : State :=
  match i with
  | .cls => { s with fb := t.fb, changed := t.changed, pc := t.pc }
  | .drw _ _ _ => { s with V := t.V, fb := t.fb, changed := t.changed, pc := t.pc, fault := t.fault }
  | .ret => { s with sp := t.sp, pc := t.pc, fault := t.fault }
  | .call _ => { s with stack := t.stack, sp := t.sp, pc := t.pc, fault := t.fault }
  | .jp _ | .jpV0 _ | .seImm _ _ | .sneImm _ _ | .seReg _ _ | .sneReg _ _ => { s with pc := t.pc }
  | .skp _ | .sknp _ => { s with pc := t.pc, fault := t.fault }
  | .ldI _ | .addIV _ | .ldFV _ => { s with I := t.I, pc := t.pc }
  | .ldBV _ | .ldMemV _ => { s with mem := t.mem, pc := t.pc, fault := t.fault }
  | .ldVMem _ => { s with V := t.V, pc := t.pc, fault := t.fault }
  | .ldVK _ => { s with waiting := t.waiting, waitReg := t.waitReg, pc := t.pc }
  | .ldDtV _ => { s with DT := t.DT, pc := t.pc }
  | .ldStV _ => { s with ST := t.ST, pc := t.pc }
  | _ => { s with V := t.V, pc := t.pc }

/-- The frame of every instruction: what it may not write is as it was. -/
theorem exec_frame {i : Instr} {s t : State} (h : exec i s = .next t) : t = withWritesOf i s t := by
  cases i with
  | ret => rcases exec_ret_cases s with ⟨_, e⟩ | ⟨_, _, e⟩ <;> cases h.symm.trans e <;> rfl
  | call nnn => rcases exec_call_cases s nnn with ⟨_, e⟩ | ⟨_, e⟩ <;> cases h.symm.trans e <;> rfl
  | drw x y n => rcases exec_drw_cases s x y n with ⟨_, _, e⟩ | ⟨_, _, _, e⟩ <;> cases h.symm.trans e <;> rfl
  | skp x => rcases exec_skp_cases s x with ⟨_, e⟩ | ⟨_, _, e⟩ <;> cases h.symm.trans e <;> rfl
  | sknp x => rcases exec_sknp_cases s x with ⟨_, e⟩ | ⟨_, _, e⟩ <;> cases h.symm.trans e <;> rfl
  | ldBV x => rcases exec_ldBV_cases s x with ⟨_, e⟩ | ⟨_, e⟩ <;> cases h.symm.trans e <;> rfl
  | ldMemV x => rcases exec_ldMemV_cases s x with ⟨_, e⟩ | ⟨_, e⟩ <;> cases h.symm.trans e <;> rfl
  | ldVMem x =>
    rcases exec_ldVMem_cases s x with ⟨_, e⟩ | ⟨_, e⟩ <;> cases h.symm.trans e
    · rfl
    · rw [State.loadRegs_eq]; rfl
  | _ => cases h; rfl

theorem exec_answers_next (i : Instr) (s : State) : ∃ t, exec i s = .next t :=
  have ⟨t, h, _⟩ := exec_keeps_timers i s
  ⟨t, h⟩

end Sys2Proof.Machine

namespace Sys2Proof.Machine

/-- Settles O54: the three writers of `I` set it to the values they compute; the frame of any other keeps it. -/
theorem indexWrittenOnlyBy : Obligations.IndexWrittenOnlyBy := by
  intro i s
  cases i with
  | ldI nnn => exact ⟨_, exec_ldI s nnn, addrWord_toNat nnn⟩
  | addIV x => exact ⟨_, exec_addIV s x, add_setWidth_toNat s.I (s.getV x)⟩
  | ldFV x => exact ⟨_, exec_ldFV s x, glyphAddress_toNat (s.getV x)⟩
  | _ =>
    obtain ⟨t, h⟩ := exec_answers_next _ s
    exact ⟨t, h, congrArg (fun u => u.I.toNat) (exec_frame h)⟩

/-- Settles O55: each clause names the instructions whose frame lists the field. -/
theorem otherStateWrittenOnlyBy : Obligations.OtherStateWrittenOnlyBy := by
  intro i s t h
  rw [exec_frame h]
  cases i <;> simp [withWritesOf]

/-- Settles O53: a register other than the destination and the flag keeps its value, by the write's own law; an
instruction with no destination has no register in its frame. -/
theorem registersWrittenOnlyBy : Obligations.RegistersWrittenOnlyBy := by
  intro i s t r h hne
  by_contra hr
  apply hne
  cases i with
  | ldImm x | addImm x | ldReg x | or x | and x | xor x | rnd x | ldVDt x =>
    cases h
    exact s.getV_setV_other _ hr
  | addReg x | sub x | shr x | subn x | shl x =>
    cases h
    obtain ⟨_, hkeeps, _⟩ := onlyRegsAndPc_writeBack s x _ _
    exact hkeeps r (by simpa using hr)
  | drw x y n =>
    rcases exec_drw_cases s x y n with ⟨_, _, e⟩ | ⟨_, _, _, e⟩ <;> cases h.symm.trans e
    · rfl
    · exact s.getV_setV_other _ hr
  | ldVMem x =>
    rcases exec_ldVMem_cases s x with ⟨_, e⟩ | ⟨_, e⟩ <;> cases h.symm.trans e
    · rfl
    · rw [State.getV_advance, State.getV_loadRegs _ _ _ x.isLt, if_neg (mt Nat.le_of_lt_succ hr)]
  | _ => exact congrArg (·.getV r) (exec_frame h)

end Sys2Proof.Machine

/-! ### The invariant of every run (40_cycle.md R74, R75, 60_exceptions.md R117, R118) -/

namespace Sys2Proof.Machine

/-- Settles O59: no cell is listed, no return address is set, nothing is recorded and the block is not waiting. -/
theorem constructionSatisfiesInv : Obligations.ConstructionSatisfiesInv where
  memoryCanonical := Memory.wf_nil
  pcBound := by decide
  returnBound := by decide
  haltedAt := fun _ hf => by cases hf
  waitingUnchanged := fun hw => by cases hw

section
variable {s t : State} {i : Instr}

/-- The host's inputs are not in the invariant (log 1). -/
theorem State.Inv.with_inputs (hs : s.Inv) (script : List HostCall) (n : Nat) :
    ({ s with script := script, freeTicks := n } : State).Inv :=
  { hs with }

theorem State.Inv.load (hs : s.Inv) (data : List Byte) : (s.load data).Inv :=
  { hs with memoryCanonical := Memory.wf_load hs.memoryCanonical }

/-- A fault that a tick takes before it has drawn anything halts the block at its `pc`. -/
theorem State.Inv.raise (hs : s.Inv) (hw : s.waiting = false) (hc : s.changed = false) (c : FaultCause) :
    (s.raise c).Inv :=
  { hs with haltedAt := fun _ hf => by cases hf; exact ⟨rfl, hw, hc⟩ }

/-- A waiting tick writes no more than a register, the latch and the end of the wait, and clears `changed`. -/
theorem State.Inv.scanKeys (hs : s.Inv) (hf : s.fault = none) (keypad : Keypad) : (s.latch keypad).scanKeys.Inv := by
  have hcleared : (s.latch keypad).Inv :=
    { hs with haltedAt := fun _ h => by simp [hf] at h, waitingUnchanged := fun _ => rfl }
  rcases (s.latch keypad).scanKeys_cases with ⟨_, e⟩ | ⟨k, _, _, e⟩
  · rwa [e]
  · rw [e]
    exact { hcleared with haltedAt := fun _ h => by simp [hf] at h, waitingUnchanged := fun h => by cases h }

/-! What an instruction does to each part of the invariant. -/

theorem exec_keeps_memory_wf (h : exec i s = .next t) (hm : Memory.wf s.mem) : Memory.wf t.mem := by
  cases i with
  | ldBV x =>
    rcases exec_ldBV_cases s x with ⟨_, e⟩ | ⟨hin, e⟩ <;> cases h.symm.trans e
    · exact hm
    · exact Memory.wf_writeBytes hm hin
  | ldMemV x =>
    rcases exec_ldMemV_cases s x with ⟨_, e⟩ | ⟨hin, e⟩ <;> cases h.symm.trans e
    · exact hm
    · exact Memory.wf_writeBytes hm (by rwa [State.length_firstRegs])
  | _ => rw [exec_frame h]; exact hm

theorem toNat_add_le (a k : Word) : (a + k).toNat ≤ a.toNat + k.toNat :=
  (BitVec.toNat_add a k).trans_le (Nat.mod_le _ _)

/-- R74's bound: a jump with `V[0]` reaches furthest, and `advance` starts from an address that was fetched. -/
theorem exec_pcBound (h : exec i s = .next t) (hf : s.fault = none) (hpc : s.pc.toNat ≤ 0xFFE)
    (hret : ∀ k : Fin 16, s.stack[k.val].toNat ≤ 0x1000) : t.pc.toNat ≤ 0x10FE := by
  obtain ⟨u, hu, hfault, hnext⟩ := pcConvention i s hf
  cases h.symm.trans hu
  by_cases hft : t.fault = none
  · have hadvance {k : Word} (hk : k.toNat ≤ 4) (e : t.pc = s.pc + k) : t.pc.toNat ≤ 0x10FE := by
      have := toNat_add_le s.pc k
      rw [e]; omega
    have hnew := hnext hft
    cases i with
    | ret =>
      obtain ⟨k, _, e⟩ := hnew
      have := hret k
      rw [e]; omega
    | jp nnn | call nnn => have := nnn.isLt; omega
    | jpV0 nnn => have := nnn.isLt; have := (s.getV 0).isLt; omega
    | seImm | sneImm | seReg | sneReg | skp | sknp =>
      rcases hnew with e | e
      · exact hadvance (by decide) e
      · exact hadvance (by decide) e
    | _ => exact hadvance (by decide) hnew
  · rw [hfault hft]; omega

/-- CALL alone pushes, and it pushes the address after its own. -/
theorem exec_returnBound (h : exec i s = .next t) (hpc : s.pc.toNat ≤ 0xFFE)
    (hret : ∀ k : Fin 16, s.stack[k.val].toNat ≤ 0x1000) (k : Fin 16) : t.stack[k.val].toNat ≤ 0x1000 := by
  cases i with
  | call nnn =>
    rcases exec_call_cases s nnn with ⟨_, e⟩ | ⟨hsp, e⟩ <;> cases h.symm.trans e
    · exact hret k
    · obtain ⟨hpushed, hothers⟩ := stack_set_top (stack := s.stack) hsp (s.pc + 2) (k := ⟨s.sp.val, hsp⟩) rfl
      by_cases hk : k = ⟨s.sp.val, hsp⟩
      · subst hk
        exact (congrArg BitVec.toNat hpushed).trans_le ((toNat_add_le s.pc 2).trans (Nat.add_le_add_right hpc 2))
      · exact (congrArg BitVec.toNat (hothers k hk)).trans_le (hret k)
  | _ => rw [exec_frame h]; exact hret k

/-- No instruction both draws and enters the wait. -/
theorem exec_waitingUnchanged (h : exec i s = .next t) (hw : s.waiting = false) (hc : s.changed = false) :
    t.waiting = true → t.changed = false := by
  intro htw
  cases i with
  | cls | drw =>
    have hkept := congrArg State.waiting (exec_frame h)
    exact absurd (hw.symm.trans (hkept.symm.trans htw)) Bool.false_ne_true
  | _ => rw [exec_frame h]; exact hc

/-- An instruction keeps the invariant where a tick executes it: on a running block whose `changed` is clear and whose
`pc` was fetched. -/
theorem exec_keeps_inv (hs : s.Inv) (hf : s.fault = none) (hw : s.waiting = false) (hc : s.changed = false)
    (hpc : s.pc.toNat ≤ 0xFFE) (h : exec i s = .next t) : t.Inv := by
  rcases exec_fault_cases s i hf with ⟨c, _, e⟩ | ⟨_, u, e, hu⟩ <;> cases h.symm.trans e
  · exact hs.raise hw hc c
  · exact {
      memoryCanonical := exec_keeps_memory_wf h hs.memoryCanonical
      pcBound := exec_pcBound h hf hpc hs.returnBound
      returnBound := exec_returnBound h hpc hs.returnBound
      haltedAt := fun _ hft => by simp [hu] at hft
      waitingUnchanged := exec_waitingUnchanged h hw hc }

theorem fetchExecute_keeps_inv {rnd : Byte} (hs : s.Inv) (hf : s.fault = none) (hw : s.waiting = false)
    (hc : s.changed = false) (h : s.fetchExecute rnd = .next t) : t.Inv := by
  rcases s.fetchExecute_cases rnd with ⟨_, e⟩ | ⟨_, _, e⟩ | ⟨hpc, i, _, e⟩
  · cases h.symm.trans e
    exact hs.raise hw hc _
  · cases h.symm.trans e
    exact hs.raise hw hc _
  · exact exec_keeps_inv (s := { s with rnd := rnd }) { hs with } hf hw hc hpc (e.symm.trans h)

theorem tick_keeps_inv {keypad : Keypad} {rnd : Byte} (hs : s.Inv) (h : tick keypad rnd s = .next t) : t.Inv := by
  rcases tick_cases keypad rnd s with ⟨_, e⟩ | ⟨hf, _, e⟩ | ⟨hf, hw, e⟩
  · cases h.symm.trans e
    exact hs
  · cases h.symm.trans e
    exact hs.scanKeys hf keypad
  · have hready : (s.latch keypad).decayTimers.Inv :=
      { hs with haltedAt := fun _ h => by simp [hf] at h, waitingUnchanged := fun _ => rfl }
    exact fetchExecute_keeps_inv hready hf hw rfl (e.symm.trans h)

end

/-- Settles O60: a step is a tick or a load of the same state but for the host's inputs. -/
theorem everyStepKeepsInv : Obligations.EveryStepKeepsInv := by
  intro s t hs h
  rcases step_cases s with ⟨keypad, rnd, rest, _, e⟩ | ⟨data, rest, _, e⟩ | ⟨_, e⟩
  · exact tick_keeps_inv (hs.with_inputs rest s.freeTicks) (e.symm.trans h)
  · cases h.symm.trans e
    exact (hs.with_inputs rest s.freeTicks).load data
  · exact tick_keeps_inv (hs.with_inputs s.script (s.freeTicks + 1)) (e.symm.trans h)

end Sys2Proof.Machine

/-! ### Drawing a sprite (41_display.md R79) -/

namespace Sys2Proof.Machine

/-- The pixels that the sprite's bytes set are the statements' `spriteHits`. -/
theorem rowsHit_eq_spriteHits (s : State) (x0 y0 : Byte) (n : Nat) (row : Fin Config.height) (col : Fin Config.width) :
    rowsHit x0 y0 (Memory.readBytes s.mem s.I.toNat n) 0 row col = spriteHits s x0 y0 n row col :=
  rowsHit_readBytes x0 y0 s.mem s.I.toNat n row col

/-- What DRW leaves where the sprite lies in memory. -/
theorem exec_drw_draws (x y : RegIx) (n : Rows) (s : State) (hin : n.val = 0 ∨ s.I.toNat + n.val - 1 ≤ 0xFFF) :
    ∃ d : Drawing,
      exec (.drw x y n) s =
        .next ({ s.setV Config.flagReg (flagOf d.collision) with fb := d.fb, changed := true }.advance 2) ∧
      (∀ r c, getPixel d.fb r c = Bool.xor (getPixel s.fb r c) (spriteHits s (s.getV x) (s.getV y) n.val r c)) ∧
      (d.collision = true ↔
        ∃ r c, getPixel s.fb r c = true ∧ spriteHits s (s.getV x) (s.getV y) n.val r c = true) := by
  rcases exec_drw_cases s x y n with ⟨_, _, _⟩ | ⟨_, d, rfl, e⟩
  · omega
  · have hfits : 0 + (Memory.readBytes s.mem s.I.toNat n.val).length ≤ Config.height := by
      rw [Memory.length_readBytes, Nat.zero_add]
      exact n.isLt.le.trans (by decide)
    obtain ⟨hpixels, hcollision⟩ := drawRows_spec (s.getV x) (s.getV y) ⟨s.fb, false⟩ _ 0 hfits
    simp only [rowsHit_eq_spriteHits, Bool.false_eq_true, false_or] at hpixels hcollision
    exact ⟨_, e, hpixels, hcollision⟩

/-- Settles O11: past 0xFFF the draw faults; within memory the flag is the collision of the drawing. -/
theorem drwXorsSprite : Obligations.DrwXorsSprite := by
  intro x y n s
  refine ⟨fun ⟨hn, hout⟩ => ?_, fun hin => ?_⟩
  · exact ⟨_, inRange_outside s _ ⟨hn, by omega⟩, onlyRaised_raise s _⟩
  · obtain ⟨d, e, hpixels, hcollision⟩ := exec_drw_draws x y n s hin
    have hflag := s.getV_setV_same Config.flagReg (flagOf d.collision)
    refine ⟨_, e, hpixels, fun hhit => ?collides, fun hmiss => ?misses, fun r hr => ?kept, rfl, rfl, fun _ => rfl, rfl⟩
    case collides => rw [hcollision.mpr hhit] at hflag ⊢; exact hflag
    case misses => rw [Bool.eq_false_iff.mpr (mt hcollision.mp hmiss)] at hflag ⊢; exact hflag
    case kept => exact s.getV_setV_other _ (by simpa using hr)

/-- The sprite is the same on a state with the same memory and index. -/
theorem spriteHits_congr {s t : State} (hmem : keepsMemory s t) (hI : t.I = s.I) (x0 y0 : Byte) (n : Nat)
    (r : Fin Config.height) (c : Fin Config.width) : spriteHits t x0 y0 n r c = spriteHits s x0 y0 n r c := by
  simp only [spriteHits, hI, hmem _]

/-- Settles O12: the first draw leaves the sprite's bytes, its place and `I`, so the second XORs the same bits into the
same pixels, and turns off those the first one turned on. -/
theorem drwTwiceRestores : Obligations.DrwTwiceRestores := by
  intro x y n s hx hy hin
  obtain ⟨t, et, hpixels, _, _, hregs, _, _, hmem, hframe⟩ := (drwXorsSprite x y n s).2 hin
  have hI : t.I = s.I := by rw [hframe]
  obtain ⟨u, eu, hpixels', hcollides, hmisses, _⟩ := (drwXorsSprite x y n t).2 (hI ▸ hin)
  simp only [spriteHits_congr hmem hI, hregs x (by simpa using hx), hregs y (by simpa using hy)]
    at hpixels' hcollides hmisses
  refine ⟨t, u, et, eu, fun r c => ?restored, ?flag⟩
  case restored => rw [hpixels', hpixels, Bool.xor_assoc, Bool.xor_self, Bool.xor_false]
  case flag =>
    have hon (r c) : (getPixel t.fb r c = true ∧ spriteHits s (s.getV x) (s.getV y) n.val r c = true) ↔
        getPixel s.fb r c = false ∧ getPixel t.fb r c = true := by
      rw [hpixels]
      cases getPixel s.fb r c <;> simp
    simp only [hon] at hcollides hmisses
    refine ⟨fun hflag => ?_, hcollides⟩
    by_contra hnone
    rw [hmisses hnone] at hflag
    cases hflag

end Sys2Proof.Machine

/-! ### Round trips through the stack and through memory (42_control_flow.md, 44_index_memory.md, 20_memory.md R46) -/

namespace Sys2Proof.Machine

/-- Settles O19: the entry RET pops is the one CALL pushed, as no more than the stack and its pointer are read. -/
theorem callThenRetReturns : Obligations.CallThenRetReturns := by
  intro nnn s t u hsp hcall hstack husp
  obtain ⟨t', e, hpushed, _, htsp, _⟩ := (callPushes nnn s).2 ⟨s.sp.val, hsp⟩ rfl
  cases hcall.symm.trans e
  obtain ⟨v, e', hvsp, hvpc, hframe, _⟩ := (retPops u).2 ⟨s.sp.val, hsp⟩ (by rw [husp, htsp])
  refine ⟨v, e', ?pc, Fin.ext hvsp, ?stack⟩
  case pc => rw [hvpc, ← hpushed]; simp only [hstack]
  case stack => rw [hframe]; exact hstack

/-- Reads depend on the memory field alone. -/
theorem State.readByte_congr {s t : State} (h : s.mem = t.mem) (a : Nat) : s.readByte a = t.readByte a :=
  congrArg (Memory.read · a) h

/-- Settles O34: register `r` is loaded from the byte it was stored in. -/
theorem dumpThenLoadRestores : Obligations.DumpThenLoadRestores := by
  intro x s t u hin hdump hmem hI
  obtain ⟨t', e, hstored, _⟩ := (registerDump x s).2 hin
  cases hdump.symm.trans e
  obtain ⟨v, e', hloaded, _⟩ := (registerLoad x u).2 (by rwa [hI])
  exact ⟨v, e', fun r hr => by rw [hloaded r hr, State.readByte_congr hmem, hI, hstored r hr]⟩

/-- A tick of a running block at two bytes of memory executes the word that their values, high byte first, make. -/
theorem tick_executes_bytes {u t : State} (keypad : Keypad) (rnd : Byte) {pc hi lo : Nat}
    (hhi : (t.readByte pc).toNat = hi) (hlo : (t.readByte (pc + 1)).toNat = lo) (hin : pc ≤ 0xFFE)
    (hmem : u.mem = t.mem) (hpc : u.pc.toNat = pc) (hf : u.fault = none) (hw : u.waiting = false) :
    tick keypad rnd u = State.executeWord
      { u with key := keypad, changed := false, DT := decay u.DT, ST := decay u.ST }
      (BitVec.ofNat 16 (hi * 256 + lo)) rnd := by
  subst hpc hhi hlo
  simp only [← State.readByte_congr hmem]
  exact (fetchReadsWordOrFaults keypad rnd u hf hw).1 hin

/-- Settles O35: the two bytes that the tick fetches read as they were stored. -/
theorem storedBytesAreFetched : Obligations.StoredBytesAreFetched := by
  intro x s fetches
  refine ⟨fun hin => ?dump, fun hin => ?digits⟩
  case dump =>
    obtain ⟨t, e, hstored, _⟩ := (registerDump x s).2 hin
    refine ⟨t, e, fun r q hq hqx u keypad rnd => ?_⟩
    have hle : r.val + 1 ≤ x.val := hq ▸ hqx
    have hr : r ≤ x := Nat.le_of_lt hle
    have hnext := hstored q hqx
    rw [hq, ← Nat.add_assoc] at hnext
    exact tick_executes_bytes keypad rnd (congrArg _ (hstored r hr)) (congrArg _ hnext) (by omega)
  case digits =>
    obtain ⟨t, e, hhundreds, htens, hunits, _⟩ := (ldBStoresDigits x s).2 hin
    exact ⟨t, e, fun u keypad rnd => tick_executes_bytes keypad rnd hhundreds htens (by omega),
      fun u keypad rnd => tick_executes_bytes keypad rnd htens hunits (by omega)⟩

end Sys2Proof.Machine

/-! ### One step, one transaction of the host (70_reset_and_hazards.md R135) -/

namespace Sys2Proof.Machine

section
variable {s : State}

theorem step_tick {keypad : Keypad} {rnd : Byte} {rest : List HostCall} (h : s.script = .tick keypad rnd :: rest) :
    step s = tick keypad rnd { s with script := rest } := by
  simp only [step, hostTransaction, h]

theorem step_load {data : List Byte} {rest : List HostCall} (h : s.script = .load data :: rest) :
    step s = .next ({ s with script := rest }.load data) := by
  simp only [step, hostTransaction, h]

theorem step_free (h : s.script = []) :
    step s = tick (Config.freeKeypad s.freeTicks) (Config.freeRnd s.freeTicks)
      { s with freeTicks := s.freeTicks + 1 } := by
  simp only [step, hostTransaction, h]

end

/-- Every tick answers a next state: the ends of all its paths are faults taken, scans and instructions. -/
theorem tick_answers_next (keypad : Keypad) (rnd : Byte) (s : State) : ∃ t, tick keypad rnd s = .next t := by
  rcases tick_cases keypad rnd s with ⟨_, e⟩ | ⟨_, _, e⟩ | ⟨_, _, e⟩
  · exact ⟨_, e⟩
  · exact ⟨_, e⟩
  · rcases (s.latch keypad).decayTimers.fetchExecute_cases rnd with ⟨_, e'⟩ | ⟨_, _, e'⟩ | ⟨_, i, _, e'⟩
    · exact ⟨_, e.trans e'⟩
    · exact ⟨_, e.trans e'⟩
    · obtain ⟨t, ht⟩ := exec_answers_next i { (s.latch keypad).decayTimers with rnd := rnd }
      exact ⟨t, e.trans (e'.trans ht)⟩

end Sys2Proof.Machine

namespace Sys2Proof.Machine

/-- Settles O58: one clause for each shape of the script. -/
theorem stepIsOneHostTransaction : Obligations.StepIsOneHostTransaction := fun _ =>
  ⟨fun _ _ _ h => step_tick h, fun _ _ h => ⟨_, step_load h, rfl, rfl⟩, step_free⟩

/-- Settles O41: the transaction is a tick, which answers a next state, or a load, which is one. -/
theorem everyStepAnswersNext : Obligations.EveryStepAnswersNext := by
  intro s
  rcases step_cases s with ⟨keypad, rnd, rest, _, e⟩ | ⟨_, _, _, e⟩ | ⟨_, e⟩
  · rw [e]; exact tick_answers_next ..
  · exact ⟨_, e⟩
  · rw [e]; exact tick_answers_next ..

/-- Settles O40: the tick executes the word at `pc`, and a step is the tick of a state with the same `pc` and memory. -/
theorem stepRunsDecodedInstruction : Obligations.StepRunsDecodedInstruction := by
  intro i s hf hw hpc hi
  have hticks (script : List HostCall) (n : Nat) (keypad : Keypad) (rnd : Byte) :=
    (decodeThenExecuteOrFault keypad rnd { s with script := script, freeTicks := n } hf hw hpc).2 i hi
  exact ⟨hticks s.script s.freeTicks, fun _ _ _ h => (step_tick h).trans (hticks ..),
    fun h => (step_free h).trans (hticks s.script ..)⟩

end Sys2Proof.Machine

/-! ### Runs of a halted and of a waiting block (60_exceptions.md R120, 40_cycle.md R69) -/

namespace Sys2Proof.Machine

/-- A halted block through `n` steps: only loads, the script and the counter of free inputs move. -/
theorem run_halted (n : Nat) (s : State) (hf : s.fault ≠ none) :
    core.run n s = .next { s with mem := afterLoads s.mem (s.script.take n), script := s.script.drop n,
                                  freeTicks := s.freeTicks + (n - s.script.length) } := by
  induction n generalizing s with
  | zero => simp [Host.Core.run, afterLoads]
  | succ n ih =>
    rcases hs : s.script with _ | ⟨_ | _, rest⟩
    · refine (run_succ n ((step_free hs).trans (tick_halted _ _ hf))).trans ((ih _ ?_).trans ?_)
      · exact hf
      · simp [hs, Nat.add_assoc, Nat.add_comm 1 n]
    · refine (run_succ n ((step_tick hs).trans (tick_halted _ _ hf))).trans ((ih _ ?_).trans ?_)
      · exact hf
      · simp [afterLoads]
    · refine (run_succ n (step_load hs)).trans ((ih _ ?_).trans ?_)
      · exact hf
      · simp [afterLoads, State.load]

/-- One step more at the end of a run. -/
theorem run_then_step {n : Nat} {s t : State} (h : core.run n s = .next t) : core.run (n + 1) s = step t := by
  induction n generalizing s with
  | zero =>
    cases h
    obtain ⟨u, hu⟩ := everyStepAnswersNext t
    rw [run_succ 0 hu, hu]; rfl
  | succ n ih =>
    obtain ⟨u, hu⟩ := everyStepAnswersNext s
    rw [run_succ (n + 1) hu]
    exact ih ((run_succ n hu).symm.trans h)

/-- A waiting block through ticks with no key pressed. -/
theorem run_waiting_idle (idle : List Byte) (rest : List HostCall) (s : State) (hf : s.fault = none)
    (hw : s.waiting = true)
    (hs : s.script = (idle.map fun r => HostCall.tick (Vector.replicate 16 false) r) ++ rest) :
    ∃ t, core.run idle.length s = .next t ∧ t = { s with key := t.key, changed := t.changed, script := rest } := by
  induction idle generalizing s with
  | nil => exact ⟨s, rfl, by rw [← show s.script = rest from hs]⟩
  | cons r idle ih =>
    obtain ⟨hidle, _⟩ := waitingTick (Vector.replicate 16 false) r
      { s with script := (idle.map fun r => HostCall.tick (Vector.replicate 16 false) r) ++ rest } hf hw
    obtain ⟨t, htick, rfl, _⟩ := hidle fun j => Vector.getElem_replicate j.isLt
    obtain ⟨u, hrun, hu⟩ := ih { s with key := _, changed := false, script := _ } hf hw rfl
    exact ⟨u, (run_succ _ ((step_tick hs).trans htick)).trans hrun, hu⟩

/-- Settles O43: the run's state is given field by field; reads below 0x200 are of no load's bytes. -/
theorem haltedForGood : Obligations.HaltedForGood := by
  intro n s hf
  exact ⟨_, run_halted n s hf, rfl, afterLoads_ticks s.mem _, fun _ ha => read_afterLoads_low s.mem _ ha⟩

/-- Settles O45: the idle ticks are run by induction; the step after them is the waiting tick that finds the key. -/
theorem waitEndsAtFirstPress : Obligations.WaitEndsAtFirstPress := by
  intro idle keypad rnd k rest s hf hw hs hk hlow
  obtain ⟨t, hrun, ht⟩ := run_waiting_idle idle _ s hf hw hs
  have htw : t.waiting = true := by rw [ht]; exact hw
  have htf : t.fault = none := by rw [ht]; exact hf
  have hts : t.script = .tick keypad rnd :: rest := by rw [ht]
  refine ⟨⟨t, hrun, htw, ht⟩, ?_⟩
  obtain ⟨u, hu, hkey, hregs, hframe, _⟩ := (waitingTick keypad rnd { t with script := rest } htf htw).2 k hk hlow
  have hstep : core.run (idle.length + 1) s = .next u := (run_then_step hrun).trans ((step_tick hts).trans hu)
  rw [ht] at hkey hregs hframe
  exact ⟨u, hstep, hkey, hregs, hframe⟩

end Sys2Proof.Machine

/-! ### The fault a tick raises (60_exceptions.md R119) -/

namespace Sys2Proof.Machine

/-- An instruction's own check does not depend on the random byte. -/
theorem ownFault_rnd (i : Instr) (s : State) (rnd : Byte) : ownFault i { s with rnd := rnd } = ownFault i s := rfl

/-- The latch, the clearing of `changed` and the timer decay come before the checks and move none of them. -/
theorem tickFault_latch_decay (s : State) (keypad : Keypad) :
    tickFault (s.latch keypad).decayTimers = tickFault s := rfl

/-- Fetching and executing records the first check that fails. -/
theorem fetchExecute_fault {s : State} (rnd : Byte) (hf : s.fault = none) :
    ∃ t, s.fetchExecute rnd = .next t ∧ t.fault = (tickFault s).map fun c => ⟨c, s.pc⟩ := by
  rcases s.fetchExecute_cases rnd with ⟨hpc, e⟩ | ⟨hpc, ⟨r, hr⟩, e⟩ | ⟨hpc, i, hi, e⟩
  · have hrange : rangeFault s.pc.toNat 2 = some (.memoryOutOfRange (max s.pc.toNat 0x1000)) :=
      if_pos ⟨Nat.two_pos, by omega⟩
    exact ⟨_, e, by simp [tickFault, hrange]⟩
  · have hrange : rangeFault s.pc.toNat 2 = none := if_neg (by omega)
    exact ⟨_, e, by simp [tickFault, hrange, hr]⟩
  · have hrange : rangeFault s.pc.toNat 2 = none := if_neg (by omega)
    have hown : tickFault s = ownFault i s := by simp only [tickFault, hrange, hi]
    rcases exec_fault_cases { s with rnd := rnd } i hf with ⟨c, hc, e'⟩ | ⟨hc, t, e', ht⟩
    · exact ⟨_, e.trans e', by rw [hown, ← ownFault_rnd, hc]; rfl⟩
    · exact ⟨t, e.trans e', by rw [hown, ← ownFault_rnd, hc, ht]; rfl⟩

/-- Settles O50: a waiting tick only scans keys; an executing one records the first failing check of its state. -/
theorem faultPriority : Obligations.FaultPriority := by
  intro keypad rnd s hf
  cases hw : s.waiting with
  | true => exact ⟨_, tick_waiting keypad rnd hf hw, (State.scanKeys_fault _).trans hf⟩
  | false =>
    obtain ⟨t, e, ht⟩ := fetchExecute_fault (s := (s.latch keypad).decayTimers) rnd hf
    exact ⟨t, (tick_executing keypad rnd hf hw).trans e, ht⟩

end Sys2Proof.Machine

/-! ### The sound timer is read by no instruction (10_state.md R21) -/

namespace Sys2Proof.Machine

/-- Two outcomes are next states that differ in ST alone. -/
def differInST (r r' : Result) : Prop := ∃ t b, r = .next t ∧ r' = .next { t with ST := b }

section
variable (s : State) (b : Byte)

theorem differInST_next : differInST (.next s) (.next { s with ST := b }) := ⟨s, b, rfl, rfl⟩

theorem differInST_takeFault (c : FaultCause) : differInST (takeFault c s) (takeFault c { s with ST := b }) :=
  ⟨s.raise c, b, rfl, rfl⟩

theorem differInST_inRange {base n : Nat} {k k' : Result} (h : differInST k k') :
    differInST (inRange base n s k) (inRange base n { s with ST := b } k') := by
  simp only [inRange]
  split
  · exact differInST_takeFault s b _
  · exact h

theorem State.getV_withST (x : RegIx) : ({ s with ST := b } : State).getV x = s.getV x := rfl

theorem State.loadRegs_withST (base n : Nat) :
    ({ s with ST := b } : State).loadRegs base n = { s.loadRegs base n with ST := b } := by
  induction n with
  | zero => rfl
  | succ n ih => simp only [State.loadRegs, ih]; rfl

/-- Every check and every value written but ST itself is computed from the other fields. -/
theorem exec_differInST (i : Instr) : differInST (exec i s) (exec i { s with ST := b }) := by
  cases i with
  | ret =>
    by_cases h : 0 < s.sp.val <;> simp only [exec, execRet, State.pop, h, dite_true, dite_false]
    · exact differInST_next _ b
    · exact differInST_takeFault s b _
  | call nnn =>
    by_cases h : s.sp.val < Config.stackDepth <;> simp only [exec, execCall, State.push, h, dite_true, dite_false]
    · exact differInST_next _ b
    · exact differInST_takeFault s b _
  | skp x =>
    simp only [exec, execSkp, State.getV_withST]
    cases keyOf (s.getV x) with
    | none => exact differInST_takeFault s b _
    | some k => exact differInST_next _ b
  | sknp x =>
    simp only [exec, execSknp, State.getV_withST]
    cases keyOf (s.getV x) with
    | none => exact differInST_takeFault s b _
    | some k => exact differInST_next _ b
  | drw | ldBV | ldMemV => exact differInST_inRange s b (differInST_next _ b)
  | ldVMem x =>
    simp only [exec, execLdVMem, State.loadRegs_withST]
    exact differInST_inRange s b (differInST_next _ b)
  | ldStV x => exact ⟨_, s.getV x, rfl, rfl⟩
  | _ => exact differInST_next _ b

theorem executeWord_differInST (w : Word) (rnd : Byte) :
    differInST (s.executeWord w rnd) (State.executeWord { s with ST := b } w rnd) := by
  cases h : decodeWord w with
  | error r => simp only [State.executeWord, h]; exact differInST_takeFault s b _
  | ok i => simp only [State.executeWord, h]; exact exec_differInST { s with rnd := rnd } b i

theorem fetchExecute_differInST (rnd : Byte) :
    differInST (s.fetchExecute rnd) (State.fetchExecute { s with ST := b } rnd) :=
  differInST_inRange s b (executeWord_differInST s b _ rnd)

theorem State.scanKeys_withST : ({ s with ST := b } : State).scanKeys = { s.scanKeys with ST := b } := by
  simp only [State.scanKeys]
  cases firstPressed s.key <;> rfl

end

/-- Settles O56: ST decays beside DT and goes nowhere else. -/
theorem soundTimerIsReadByNone : Obligations.SoundTimerIsReadByNone := by
  intro keypad rnd b s
  have htick : differInST (tick keypad rnd s) (tick keypad rnd { s with ST := b }) := by
    rcases tick_cases keypad rnd s with ⟨hf, e⟩ | ⟨hf, hw, e⟩ | ⟨hf, hw, e⟩
    · rw [e, tick_halted keypad rnd (s := { s with ST := b }) hf]
      exact differInST_next s b
    · rw [e, tick_waiting keypad rnd (s := { s with ST := b }) hf hw]
      exact (State.scanKeys_withST (s.latch keypad) b) ▸ differInST_next _ b
    · rw [e, tick_executing keypad rnd (s := { s with ST := b }) hf hw]
      exact fetchExecute_differInST (s.latch keypad).decayTimers (decay b) rnd
  obtain ⟨t, c, e, e'⟩ := htick
  exact ⟨t, _, e, e', rfl, rfl⟩

end Sys2Proof.Machine

/-! ### The construction state, hand-written words, and single instructions (70_reset_and_hazards.md R129, 43_alu.md) -/

namespace Sys2Proof.Machine

/-- Past the sixteen glyphs no byte of the font stands. -/
theorem resetByte_pastFont {a : Nat} (ha : 0x050 ≤ a) : resetByte a = 0x00 := by
  have hglyph : font.length ≤ (a - Config.fontBase) / Config.glyphStride := by
    simp only [show font.length = 16 from rfl, Config.fontBase, Config.glyphStride]
    omega
  rw [resetByte, List.getD_eq_default font [] hglyph]
  rfl

/-- Settles O1: memory reads as the font and then as zero; every other element is the one `State.reset` writes. -/
theorem constructionState : Obligations.ConstructionState := by
  have hzero {α : Type} (z : α) (k : Fin 16) : (Vector.replicate 16 z)[k.val] = z := Vector.getElem_replicate k.isLt
  exact ⟨fun d r => resetByte_glyphRow d.val r.isLt, fun a ha _ => resetByte_pastFont ha, hzero 0, rfl, rfl, rfl,
    hzero 0, rfl, rfl, rfl, rfl, rfl, hzero false, getPixel_clear, rfl, rfl⟩

/-- Settles O9: fourteen words are decoded. -/
theorem sampleWordsDecode : Obligations.SampleWordsDecode := by
  unfold Obligations.SampleWordsDecode
  decide

theorem exec_shr (x y : RegIx) (s : State) :
    exec (.shr x y) s =
      .next (s.writeBack x (shr8 (shiftOperand shiftSource x y s)) (shrFlag (shiftOperand shiftSource x y s))) := rfl

theorem exec_shl (x y : RegIx) (s : State) :
    exec (.shl x y) s =
      .next (s.writeBack x (shl8 (shiftOperand shiftSource x y s)) (shlFlag (shiftOperand shiftSource x y s))) := rfl

/-- Settles O26: the source is read before the write back; the flag overwrites a result in `V[0xF]`. -/
theorem shiftWritesResultAndBitOut : Obligations.ShiftWritesResultAndBitOut := by
  intro x y s src
  have hsrc : (shiftOperand shiftSource x y s).toNat = src := rfl
  refine ⟨⟨_, exec_shr x y s, fun hx => ?shr, ?shrFlag, rfl, onlyRegsAndPc_writeBack s x _ _⟩,
    ⟨_, exec_shl x y s, fun hx => ?shl, ?shlFlag, rfl, onlyRegsAndPc_writeBack s x _ _⟩⟩
  case shr => rw [State.getV_writeBack_result s hx, shr8_toNat, hsrc]
  case shrFlag => rw [State.getV_writeBack_flag, shrFlag_toNat, hsrc]
  case shl => rw [State.getV_writeBack_result s hx, shl8_toNat, hsrc]
  case shlFlag => rw [State.getV_writeBack_flag, shlFlag_toNat, hsrc]

theorem exec_rnd (x : RegIx) (nn : Byte) (s : State) :
    exec (.rnd x nn) s = .next ((s.setV x (s.rnd &&& nn)).advance 2) := rfl

/-- Settles O27: bit `k` of a bitwise AND is the AND of bits `k`; the tick puts its own random byte in the field. -/
theorem rndMasksRandomByte : Obligations.RndMasksRandomByte := by
  intro x nn s
  have hbits (s : State) (k : Fin 8) : (((s.setV x (s.rnd &&& nn)).advance 2).getV x).getLsbD k.val =
      (s.rnd.getLsbD k.val && nn.getLsbD k.val) := by
    rw [State.getV_setV_advance_same, BitVec.getLsbD_and]
  refine ⟨⟨_, exec_rnd x nn s, hbits s, rfl, onlyRegsAndPc_setV s x _ 2⟩, fun hf hw hpc hi keypad rnd => ?tick⟩
  case tick =>
    have htick := (decodeThenExecuteOrFault keypad rnd s hf hw hpc).2 _ hi
    obtain ⟨_, hregs, hmem⟩ := onlyRegsAndPc_setV s x (rnd &&& nn) 2
    exact ⟨_, htick.trans (exec_rnd ..), hbits _, rfl, hregs, hmem⟩

/-- Settles O38: LD Vx, K has one path, which writes the wait state and `pc`. -/
theorem ldVKEntersWait : Obligations.LdVKEntersWait := fun _ _ => ⟨_, rfl, rfl, rfl, rfl, rfl, fun _ => rfl⟩

end Sys2Proof.Machine
